-- ==== Sys2Proof/Word.lean ====
section
/-! DEFINITION. The two word types of the block: an 8-bit byte and the 64-bit word of the value ports. -/

namespace Sys2Proof

/-- An 8-bit byte (00_scope.md R7). -/
abbrev Byte := BitVec 8

/-- The 64-bit word that the `VAL` and `RVAL` ports carry (10_state.md R33, R34). -/
abbrev Word := BitVec 64

end Sys2Proof
end

