-- ==== Sys2Proof/Machine/Bits.lean ====
section
/-! DEFINITION. Bit strings in stream order and their packing into bytes (00_scope.md R9, 20_memory.md R51, R52), and
the byte sequences that are the block's memories (20_memory.md R50). -/

namespace Sys2Proof.Machine

/-- `ceil8(n)`, the bytes that `n` bits need (00_scope.md R7). -/
def ceil8 (n : Nat) : Nat := (n + 7) / 8

/-- `be(v, n)`: the low `n` bits of `v`, most significant first (00_scope.md R9). -/
def be (v : Nat) : Nat → List Bool
  | 0 => []
  | n + 1 => v.testBit n :: be v n

/-- `val(s)`: the number whose bits, most significant first, are `s` (00_scope.md R9). -/
def bitsVal (s : List Bool) : Nat := s.foldl (fun a b => a * 2 + b.toNat) 0

/-- `unpack(B)`: the bits of a byte sequence in stream order, bit position 7 of byte 0 first (00_scope.md R9). -/
def unpack (bytes : List Byte) : List Bool := bytes.flatMap fun b => be b.toNat 8

/-- Byte `i` of `pack(s)`: stream bit `8 * i + r` at bit position `7 - r`, 0 past the end (00_scope.md R9). -/
def packByte (s : List Bool) (i : Nat) : Byte :=
  BitVec.ofNat 8 (bitsVal ((List.range 8).map fun r => s.getD (8 * i + r) false))

/-- `pack(s)`: the bit string `s` in `ceil8 |s|` bytes, the last one padded with zeros at its low end
(00_scope.md R9, 20_memory.md R54). -/
def pack (s : List Bool) : List Byte := (List.range (ceil8 s.length)).map (packByte s)

/-- `MemRead(i, 1)`: the byte at index `i`, none past the end (00_scope.md R10, 20_memory.md R50, R62). -/
def memRead (m : List Byte) (i : Nat) : Option Byte := m[i]?

/-- `MemWrite(|m|, 1, b)`: append one byte (00_scope.md R10, 20_memory.md R50). -/
def memAppend (m : List Byte) (b : Byte) : List Byte := m ++ [b]

/-- The cells of a byte memory as (address, byte) pairs, addresses from 0 (20_memory.md R50, R61; log 13). -/
def memCells (m : List Byte) : List (Nat × Byte) := (List.range m.length).zip m

/-- The canonical form of a list of cells: addresses strictly rising with no gap from 0 (log 13). -/
def cellsWf (c : List (Nat × Byte)) : Bool := decide (c.map Prod.fst = List.range c.length)

end Sys2Proof.Machine
end

