-- ==== Sys2Proof/Config.lean ====
section
/-! DEFINITION. The parameters of the block (00_scope.md R6), its presets (R192, R96) and the two port limits that
the spec leaves open. The block stores no configuration (10_state.md R32): nothing here is state. -/

namespace Sys2Proof

/-- `WMAX`: the largest width of a payload, of a tier payload and of a bit run (00_scope.md R6). -/
@[simp] abbrev Config.widthMax : Nat := 64

/-- The greatest value a 64-bit value port carries, `2^VALUE_BITS - 1` (00_scope.md R6, R7). -/
@[simp] abbrev Config.valueMax : Nat := 2 ^ 64 - 1

/-- `J_MIN` (00_scope.md R6). -/
@[simp] abbrev Config.jumpstarterMin : Nat := 1

/-- `J_MAX` (00_scope.md R6). -/
@[simp] abbrev Config.jumpstarterMax : Nat := 8

/-- `T_MIN` (00_scope.md R6). -/
@[simp] abbrev Config.tiersMin : Nat := 1

/-- The limits of one implementation's ports that 00_scope.md R6 leaves OPEN: `tw` is `TW`, the width of the `T`
port, and `lmax` is `LMAX`, the greatest length in bytes of an input sequence. The machine takes both without bound,
as R6 allows (log 2, log 3: DESIGN CHOICE, safe), and only `wellFormed` reads them. -/
structure PortLimits where
  tw : Nat
  lmax : Nat
  deriving DecidableEq, Repr

/-- R6 asks `TW >= 2`. -/
def PortLimits.legal (lim : PortLimits) : Bool := decide (2 ≤ lim.tw)

/-- A preset configuration `(jumpstarter_bits, tiers)`, a constant the host may pass (45_config_bound.md R192). -/
structure Preset where
  j : BitVec 4
  t : Nat
  deriving DecidableEq, Repr

/-- `PRESET_J1T2` (30_encoding.md R96). -/
def presetJ1T2 : Preset := ⟨1, 2⟩

/-- `PRESET_J2T1` (30_encoding.md R96). -/
def presetJ2T1 : Preset := ⟨2, 1⟩

/-- `PRESET_J3T1` (30_encoding.md R96). -/
def presetJ3T1 : Preset := ⟨3, 1⟩

end Sys2Proof
end

