-- ==== Sys2Proof/Syntax.lean ====
section
/-! DEFINITION. The 13 commands (30_encoding.md R88), one constructor per row of the opcode table, each with the
operands its row names (10_state.md R33). -/

namespace Sys2Proof

/-- A command with its operands. `val` and `payload` come from port `VAL`, `wid` from `WID`, `j` from `J`, `t` from
`T` (its width `TW` is open, so a natural number: log 2), `bytes` from `IN`. -/
inductive Instr where
  /-- `0x01` `BWNEW` (R111). -/
  | bwnew
  /-- `0x02` `WRBITS value, width` (R112). -/
  | wrbits (val : Word) (wid : BitVec 7)
  /-- `0x03` `BWFIN` (R113). -/
  | bwfin
  /-- `0x04` `BRNEW bytes` (R126). -/
  | brnew (bytes : List Byte)
  /-- `0x05` `RDBITS width` (R128). -/
  | rdbits (wid : BitVec 7)
  /-- `0x06` `BRPOS` (R131). -/
  | brpos
  /-- `0x07` `ENCPAY value` (R143). -/
  | encpay (val : Word)
  /-- `0x08` `DECPAY payload, width` (R145). -/
  | decpay (payload : Word) (wid : BitVec 7)
  /-- `0x09` `CFGCHK j, t` (R190). -/
  | cfgchk (j : BitVec 4) (t : Nat)
  /-- `0x0A` `MAXW j, t` (R196). -/
  | maxw (j : BitVec 4) (t : Nat)
  /-- `0x0B` `ENCODE value, j, t` (R155). -/
  | encode (val : Word) (j : BitVec 4) (t : Nat)
  /-- `0x0C` `DECODE bytes, j, t` (R170). -/
  | decode (bytes : List Byte) (j : BitVec 4) (t : Nat)
  /-- `0x0D` `BITLEN value, j, t` (R205). -/
  | bitlen (val : Word) (j : BitVec 4) (t : Nat)
  deriving DecidableEq, Repr

end Sys2Proof
end

