-- ==== Sys2Proof/WellFormed.lean ====
section
/-! DEFINITION. Which commands can be presented on the ports of an implementation with given port limits
(10_state.md R33; the limits are the open parameters of 00_scope.md R6). The widths of `VAL`, `WID` and `J` are in the
operands' types. -/

namespace Sys2Proof

/-- `T` carries 0 to `2^TW - 1` (10_state.md R33, 00_scope.md R6). -/
def PortLimits.tiersFit (lim : PortLimits) (t : Nat) : Bool := decide (t < 2 ^ lim.tw)

/-- `IN` carries at most `LMAX` bytes (10_state.md R33, 00_scope.md R6). -/
def PortLimits.inputFits (lim : PortLimits) (bytes : List Byte) : Bool := decide (bytes.length ≤ lim.lmax)

/-- The command can be presented on ports with the limits `lim`. A width or a configuration that the block answers
with a failure is well-formed: the host may present it (70_reset_and_hazards.md R264). -/
def Instr.wellFormed (lim : PortLimits) : Instr → Bool
  | .bwnew => true
  | .wrbits _ _ => true
  | .bwfin => true
  | .brnew bytes => lim.inputFits bytes
  | .rdbits _ => true
  | .brpos => true
  | .encpay _ => true
  | .decpay _ _ => true
  | .cfgchk _ t => lim.tiersFit t
  | .maxw _ t => lim.tiersFit t
  | .encode _ _ t => lim.tiersFit t
  | .decode bytes _ t => lim.inputFits bytes && lim.tiersFit t
  | .bitlen _ _ t => lim.tiersFit t

end Sys2Proof
end

