-- ==== Sys2Proof/Machine/Ports.lean ====
section
/-! DEFINITION. The operand ports (10_state.md R33) and what the host does to the block (70_reset_and_hazards.md
R240, R241, R263, R264). -/

namespace Sys2Proof

/-- One presentation of a command: the command word and every operand port (10_state.md R33). A command reads the
ports its row names and ignores the others. -/
structure Request where
  /-- `CMD`, the command word. -/
  cmd : BitVec 8
  /-- `VAL`. -/
  val : Word
  /-- `WID`. -/
  wid : BitVec 7
  /-- `J`. -/
  j : BitVec 4
  /-- `T`; its width `TW` is open (log 2). -/
  t : Nat
  /-- `IN`. -/
  inp : List Byte
  deriving DecidableEq, Repr

/-- The presentation with command word `cmd` and every operand port at zero or empty. -/
def Request.bare (cmd : BitVec 8) : Request := ⟨cmd, 0, 0, 0, 0, []⟩

/-- The presentation fits ports with the limits `lim`. -/
def Request.fits (lim : PortLimits) (p : Request) : Bool := lim.tiersFit p.t && lim.inputFits p.inp

/-- What the host does next in a run (70_reset_and_hazards.md R263, R264): present a command, or reset the block
(R240). A reset that arrives while a command executes abandons it without a response (R241): that is the event `reset`
and no `present` for the abandoned command (log 5: DEDUCED, safe). -/
inductive HostEvent where
  | present (p : Request)
  | reset
  deriving DecidableEq, Repr

end Sys2Proof
end

