-- ==== Sys2Proof/Decode.lean ====
section
/-! DEFINITION. The decoder of command words (30_encoding.md R87, R88, R90), total on every presentation, and after
it the encoder. -/

namespace Sys2Proof

/-- Why a command word is reserved (30_encoding.md R90). Raised by the decoder; the step answers it with
`CmdRefused` (60_exceptions.md R215), so no run ends here. -/
inductive ReservedWord where
  /-- `CMD[7:4]` is not 0. -/
  | highBits (cmd : BitVec 8)
  /-- `CMD[7:4]` is 0 and the opcode `CMD[3:0]` is none of the 13: `0x00`, `0x0E`, `0x0F`. -/
  | opcode (cmd : BitVec 8)
  deriving DecidableEq, Repr

/-- `CMD[7:4]` (30_encoding.md R87). -/
def cmdHigh (cmd : BitVec 8) : Nat := cmd.toNat / 16

/-- The command a presentation names, with the operands that its row of the command table takes from the ports
(30_encoding.md R88, 10_state.md R33); every other word is reserved (R90). -/
def decodeRequest (p : Request) : Except ReservedWord Instr :=
  match p.cmd.toNat with
  | 0x01 => .ok .bwnew
  | 0x02 => .ok (.wrbits p.val p.wid)
  | 0x03 => .ok .bwfin
  | 0x04 => .ok (.brnew p.inp)
  | 0x05 => .ok (.rdbits p.wid)
  | 0x06 => .ok .brpos
  | 0x07 => .ok (.encpay p.val)
  | 0x08 => .ok (.decpay p.val p.wid)
  | 0x09 => .ok (.cfgchk p.j p.t)
  | 0x0A => .ok (.maxw p.j p.t)
  | 0x0B => .ok (.encode p.val p.j p.t)
  | 0x0C => .ok (.decode p.inp p.j p.t)
  | 0x0D => .ok (.bitlen p.val p.j p.t)
  | _ => .error (if cmdHigh p.cmd = 0 then .opcode p.cmd else .highBits p.cmd)

/-- The command word of a command (30_encoding.md R88). -/
def Instr.word : Instr → BitVec 8
  | .bwnew => 0x01
  | .wrbits _ _ => 0x02
  | .bwfin => 0x03
  | .brnew _ => 0x04
  | .rdbits _ => 0x05
  | .brpos => 0x06
  | .encpay _ => 0x07
  | .decpay _ _ => 0x08
  | .cfgchk _ _ => 0x09
  | .maxw _ _ => 0x0A
  | .encode _ _ _ => 0x0B
  | .decode _ _ _ => 0x0C
  | .bitlen _ _ _ => 0x0D

/-- The encoder: the presentation of a command, its command word and its operands on the ports its row names, the
ports it does not name at zero or empty (30_encoding.md R88, 10_state.md R33). -/
def encode (i : Instr) : Request :=
  let bare := Request.bare i.word
  match i with
  | .bwnew => bare
  | .wrbits val wid => { bare with val := val, wid := wid }
  | .bwfin => bare
  | .brnew bytes => { bare with inp := bytes }
  | .rdbits wid => { bare with wid := wid }
  | .brpos => bare
  | .encpay val => { bare with val := val }
  | .decpay payload wid => { bare with val := payload, wid := wid }
  | .cfgchk j t => { bare with j := j, t := t }
  | .maxw j t => { bare with j := j, t := t }
  | .encode val j t => { bare with val := val, j := j, t := t }
  | .decode bytes j t => { bare with inp := bytes, j := j, t := t }
  | .bitlen val j t => { bare with val := val, j := j, t := t }

/-- The presentation carries the command's operands on the ports its row names (30_encoding.md R88); the other ports are
ignored (10_state.md R33). -/
def Instr.carriedBy (p : Request) : Instr → Bool
  | .bwnew => true
  | .wrbits val wid => p.val == val && p.wid == wid
  | .bwfin => true
  | .brnew bytes => p.inp == bytes
  | .rdbits wid => p.wid == wid
  | .brpos => true
  | .encpay val => p.val == val
  | .decpay payload wid => p.val == payload && p.wid == wid
  | .cfgchk j t => p.j == j && p.t == t
  | .maxw j t => p.j == j && p.t == t
  | .encode val j t => p.val == val && p.j == j && p.t == t
  | .decode bytes j t => p.inp == bytes && p.j == j && p.t == t
  | .bitlen val j t => p.val == val && p.j == j && p.t == t

/-- The command the decoder reads from a command word `w` of the opcode table (`nbits` is 8 for every row), with every
operand port at zero or empty; none where the decoder refuses. -/
def decodeTableWord (nbits w : Nat) : Option Instr :=
  if nbits = 8 ∧ w < 256 then
    match decodeRequest (Request.bare (BitVec.ofNat 8 w)) with
    | .ok i => some i
    | .error _ => none
  else none

end Sys2Proof
end

