-- ==== Sys2Proof/Machine/State.lean ====
section
/-! DEFINITION. The state of the block: the user writer, the user reader, the response ports (10_state.md R21 to R28,
R34) and the host's remaining events; the failure kinds (60_exceptions.md R210); the reset state (10_state.md R38). -/

namespace Sys2Proof.Machine

/-- A bit writer (10_state.md R21 to R23, 40_bit_writer.md R110): the user writer `BW`, or a private one (R37). -/
structure Writer where
  /-- `live`: the writer exists and accepts `WRBITS` and `BWFIN` (R21). -/
  live : Bool
  /-- `buf`: the append-only byte buffer (R22). -/
  buf : List Byte
  /-- `acc`: the pending bits, right-aligned, the oldest most significant (R23; log 10). -/
  acc : BitVec 8
  /-- `cnt`: the number of pending bits, 0 to 7 (R23). -/
  cnt : BitVec 3
  deriving DecidableEq, Repr

/-- A bit reader (10_state.md R25 to R27, 41_bit_reader.md R125): the user reader `BR`, or a private one (R37). -/
structure Reader where
  /-- `live`: an input sequence has been loaded (R25). -/
  live : Bool
  /-- `src`: the input sequence, captured at creation (R26; log 4). -/
  src : List Byte
  /-- `idx`: the number of bytes fetched so far (R27). -/
  idx : Nat
  /-- `cur`: the byte most recently fetched (R27; log 10). -/
  cur : BitVec 8
  /-- `cnt`: how many low-order bits of `cur` are not yet consumed (R27). -/
  cnt : BitVec 4
  deriving DecidableEq, Repr

/-- The failure kinds (60_exceptions.md R210, R215). -/
inductive Failure where
  /-- A configuration that fails validation, a decoded width of zero, or a field that names no number (R212). -/
  | invalidEncoding
  /-- A topmost width that does not fit the jumpstarter field (R213); unreachable, kept (R165, C3). -/
  | jumpstarterOverflow
  /-- A width above the bound, or a decoded value above `2^64 - 1` (R214). -/
  | valueTooLarge
  /-- A read that needs a byte past the end of the input (R216). -/
  | unexpectedEof
  /-- A command the block gives no meaning: a reserved word, an instance that is not live, `WID` out of range (R215). -/
  | cmdRefused
  deriving DecidableEq, Repr

/-- The result ports of a successful response (10_state.md R34): a port the command's row does not name is none. -/
structure Results where
  /-- `RVAL`: a value or a payload. -/
  rval : Option Word
  /-- `RWID`: a width or a bound. -/
  rwid : Option (BitVec 7)
  /-- `RBITS`: a bit count. -/
  rbits : Option Nat
  /-- `OUT`: a byte sequence. -/
  out : Option (List Byte)
  deriving DecidableEq, Repr

/-- A response (10_state.md R34): success with the results the command's row names, or a failure kind and nothing
else, so that there is no field to read on failure. -/
inductive Response where
  | ok (r : Results)
  | fail (k : Failure)
  deriving DecidableEq, Repr

/-- The state of the block and what the host will still do to it. -/
structure State where
  /-- `BW`, the user writer. -/
  bw : Writer
  /-- `BR`, the user reader. -/
  br : Reader
  /-- The response ports: the response to the last command answered, none when no response is pending (R34, R38). -/
  response : Option Response
  /-- The host's remaining events, first one next: the MODEL's own field, which holds the input (log 1). -/
  script : List HostEvent
  deriving DecidableEq, Repr

/-- Why the machine would stop with a fault: nothing raises one, safe. No command, failure or reserved word stops the
block (60_exceptions.md R223, R224; 70_reset_and_hazards.md R263; 93_implementation_defined.md 'No entry uses stuck'), so there
is no constructor (log 14). -/
inductive Fault where
  deriving DecidableEq, Repr

/-- Why the machine would give an instruction no meaning. -/
inductive Refusal where
  /-- Raised only by an arm of `exec` whose instruction is not modelled yet; no arm raises it now (safe). -/
  | notModelled (mnemonic : String)
  deriving DecidableEq, Repr

/-- The writer's registers after reset (10_state.md R38). -/
def Writer.reset : Writer := ⟨false, [], 0, 0⟩

/-- The reader's registers after reset (10_state.md R38). -/
def Reader.reset : Reader := ⟨false, [], 0, 0, 0⟩

/-- The machine right after reset (10_state.md R38, 70_reset_and_hazards.md R240): no live writer, no live reader, no
response pending, and no command presented (R241). -/
def State.reset : State := ⟨Writer.reset, Reader.reset, none, []⟩

end Sys2Proof.Machine
end

