-- ==== Sys2Proof/Machine/Flags.lean ====
section
/-! DEFINITION. The status codes on the `STATUS` port (60_exceptions.md R211). The block has no condition codes and no
sticky flags (10_state.md R31): the only flag-like state is `live` of the writer and of the reader. -/

namespace Sys2Proof.Machine

/-- The status code of a failure kind (60_exceptions.md R211). -/
def Failure.code : Failure → BitVec 3
  | .invalidEncoding => 1
  | .jumpstarterOverflow => 2
  | .valueTooLarge => 3
  | .unexpectedEof => 4
  | .cmdRefused => 5

/-- `STATUS` of a response: 0 `OK`, or the failure kind's code (10_state.md R34, 60_exceptions.md R211). -/
def Response.status : Response → BitVec 3
  | .ok _ => 0
  | .fail k => k.code

/-- A response with no result port driven. -/
def Results.none : Results := ⟨Option.none, Option.none, Option.none, Option.none⟩

/-- A response on `RVAL` (64 bits, zero-extended: 00_scope.md R8). -/
def Results.value (v : Nat) : Results := { Results.none with rval := some (BitVec.ofNat 64 v) }

/-- A response on `RWID` (7 bits). -/
def Results.width (w : Nat) : Results := { Results.none with rwid := some (BitVec.ofNat 7 w) }

/-- A response on `RBITS` (a natural number). -/
def Results.bits (n : Nat) : Results := { Results.none with rbits := some n }

/-- A response on `OUT` (a byte sequence). -/
def Results.bytes (b : List Byte) : Results := { Results.none with out := some b }

/-- A response on `RWID` and `RVAL`: the width and payload of `ENCPAY` (42_payload_codec.md R143). -/
def Results.widthPayload (w p : Nat) : Results := { Results.width w with rval := some (BitVec.ofNat 64 p) }

/-- A response on `RVAL` and `RBITS`: the value and bit count of `DECODE` (44_tier_decode.md R170). -/
def Results.valueBits (v n : Nat) : Results := { Results.value v with rbits := some n }

end Sys2Proof.Machine
end

