-- ==== Sys2Proof/Machine/Operands.lean ====
section
/-! DEFINITION. The operand forms of the commands (10_state.md R33): the value operand, the two width operands and the
configuration, with the range checks the spec makes on them. -/

namespace Sys2Proof.Machine

/-- A `VAL` operand as a natural number, any `u64` (10_state.md R33). -/
def valOperand (val : Word) : Nat := val.toNat

/-- A `WID` operand of `WRBITS` or `RDBITS`: 0 to 64, none if it is refused (10_state.md R33, 60_exceptions.md R215). -/
def runWidth (wid : BitVec 7) : Option Nat :=
  if wid.toNat > Config.widthMax then none else some wid.toNat

/-- A `WID` operand of `DECPAY`: 1 to 64, none if it is refused (10_state.md R33, 60_exceptions.md R215). -/
def bucketWidth (wid : BitVec 7) : Option Nat :=
  if wid.toNat = 0 ∨ wid.toNat > Config.widthMax then none else some wid.toNat

/-- `valid_config(j, t)` (45_config_bound.md R190). -/
def validConfig (j t : Nat) : Bool :=
  decide (Config.jumpstarterMin ≤ j ∧ j ≤ Config.jumpstarterMax ∧ Config.tiersMin ≤ t)

end Sys2Proof.Machine
end

