-- ==== Sys2Proof/Machine/Ops.lean ====
section
/-! DEFINITION. The named operations over the registers and the byte memories: the writer's and the reader's bit
loops (40_bit_writer.md R112, R113; 41_bit_reader.md R128), the answer to a command (10_state.md R34), and the failure of one
(60_exceptions.md R223), which is the block's taking of an exception. There is no return from a failure (R224). -/

namespace Sys2Proof.Machine

/-! ## The writer -/

/-- A writer created empty (40_bit_writer.md R111). -/
def Writer.empty : Writer := ⟨true, [], 0, 0⟩

/-- A writer consumed by finalize (40_bit_writer.md R113, R116). -/
def Writer.consumed : Writer := ⟨false, [], 0, 0⟩

/-- One turn of the loop of `WRBITS`: shift the bit into the accumulator, and append the byte it completes
(40_bit_writer.md R112). -/
def Writer.pushBit (w : Writer) (b : Bool) : Writer :=
  let acc := BitVec.ofNat 8 (w.acc.toNat * 2 + b.toNat)
  let cnt := w.cnt.toNat + 1
  if cnt = 8 then { w with buf := memAppend w.buf acc, acc := 0, cnt := 0 }
  else { w with acc := acc, cnt := BitVec.ofNat 3 cnt }

/-- `write_bits(value, width)`: bits `width - 1` down to 0 of `value` (40_bit_writer.md R112, R117). -/
def Writer.writeBits (value : Nat) : Nat → Writer → Writer
  | 0, w => w
  | n + 1, w => Writer.writeBits value n (w.pushBit (value.testBit n))

/-- A list of runs `(value, width)` written in order (20_memory.md R53). -/
def Writer.writeRuns : List (Nat × Nat) → Writer → Writer
  | [], w => w
  | (value, width) :: runs, w => Writer.writeRuns runs (Writer.writeBits value width w)

/-- The bytes finalize yields: the buffer, and the pending bits left-aligned in one more byte if there are any
(40_bit_writer.md R113, 20_memory.md R54). -/
def Writer.finalBytes (w : Writer) : List Byte :=
  if w.cnt.toNat > 0 then memAppend w.buf (BitVec.ofNat 8 (w.acc.toNat * 2 ^ (8 - w.cnt.toNat)))
  else w.buf

/-- `BW.S`, the logical content of a writer: every bit written since creation, in order (10_state.md R24). -/
def Writer.content (w : Writer) : List Bool := unpack w.buf ++ be w.acc.toNat w.cnt.toNat

/-! ## The reader -/

/-- A reader created on a byte sequence (41_bit_reader.md R126): no byte is fetched yet. -/
def Reader.fresh (bytes : List Byte) : Reader := ⟨true, bytes, 0, 0, 0⟩

/-- The fetch inside a read: the next byte if the pending one is used up, none if it does not exist
(41_bit_reader.md R128, R129). -/
def Reader.fetch (r : Reader) : Option Reader :=
  if r.cnt = 0 then
    match memRead r.src r.idx with
    | none => none
    | some b => some { r with cur := b, idx := r.idx + 1, cnt := 8 }
  else some r

/-- The highest unconsumed bit of the pending byte, `cur[cnt - 1]` (10_state.md R27). -/
def Reader.topBit (r : Reader) : Bool := r.cur.toNat.testBit (r.cnt.toNat - 1)

/-- The pending byte with its highest unconsumed bit consumed (41_bit_reader.md R128). -/
def Reader.dropBit (r : Reader) : Reader := { r with cnt := BitVec.ofNat 4 (r.cnt.toNat - 1) }

/-- The loop of `read_bits` with `n` bits to go and `acc` read so far: the reader afterwards, and the value, none where
the input ran out. What was consumed stays consumed (41_bit_reader.md R128, R129). -/
def Reader.readLoop : Nat → Nat → Reader → Reader × Option Nat
  | 0, acc, r => (r, some acc)
  | n + 1, acc, r =>
    match r.fetch with
    | none => (r, none)
    | some r' => Reader.readLoop n (acc * 2 + r'.topBit.toNat) r'.dropBit

/-- `read_bits(width)` (41_bit_reader.md R128). -/
def Reader.readBits (r : Reader) (width : Nat) : Reader × Option Nat := Reader.readLoop width 0 r

/-- `BR.pos`, the bits consumed so far (10_state.md R28, 41_bit_reader.md R131). -/
def Reader.pos (r : Reader) : Nat := 8 * r.idx - r.cnt.toNat

/-! ## Answers -/

/-- The state with a response on the response ports (10_state.md R34). -/
def State.respond (s : State) (r : Response) : State := { s with response := some r }

/-- The state with another user writer. -/
def State.setWriter (s : State) (w : Writer) : State := { s with bw := w }

/-- The state with another user reader. -/
def State.setReader (s : State) (r : Reader) : State := { s with br := r }

/-- The command ends successfully with the results `r` (00_scope.md R10, 10_state.md R34). -/
def answer (s : State) (r : Results) : Host.Outcome State Fault Refusal := .next (s.respond (.ok r))

/-- `raise K`: the command ends at once with failure kind `K`, the response carries the kind and nothing else, and the
block is ready for the next command (00_scope.md R10, 60_exceptions.md R217, R223). -/
def raise (s : State) (k : Failure) : Host.Outcome State Fault Refusal := .next (s.respond (.fail k))

/-- The outcome of a command that touches no register: its results, or the failure of a step of it, propagated
unchanged (60_exceptions.md R225). -/
def conclude (s : State) : Except Failure Results → Host.Outcome State Fault Refusal
  | .ok r => answer s r
  | .error k => raise s k

end Sys2Proof.Machine
end

