-- ==== Sys2Proof/Machine/ConfigBound.lean ====
section
/-! DEFINITION. Configuration validation and the bound checker: `WLIM`, the source's `max_width_for_config`, and the
commands `CFGCHK`, `MAXW` (45_config_bound.md). -/

namespace Sys2Proof.Machine

/-- The tier loop of `WLIM`: the bound grows by `2^(bound + 1) - 4`, clamped at 64 (45_config_bound.md R195). -/
def wlimLoop : Nat → Nat → Nat
  | 0, bound => bound
  | t + 1, bound => wlimLoop t (if bound ≥ 6 then Config.widthMax else 2 ^ (bound + 1) - 4)

/-- `WLIM(j, t)`, the bound register (45_config_bound.md R195). -/
def wlim (j t : Nat) : Nat := wlimLoop t (min Config.widthMax (2 ^ j))

/-- The exact `max_width_for_config(j, t)`, the recurrence `b_t` (45_config_bound.md R193). Used in statements only: the
block never computes it (R194, log 9). -/
def maxWidthForConfig (j : Nat) : Nat → Nat
  | 0 => 2 ^ j
  | t + 1 => 2 ^ (maxWidthForConfig j t + 1) - 4

/-- The source's `max_width_for_config` with the maximum sentinel `sent` it saturates to (45_config_bound.md R193). The
sentinel is open (U1), so it is an argument (log 9). The point at which the source's arithmetic overflows is not stated
(R193, N3): that a step, and `2^j` before the first, gives the sentinel exactly where its value exceeds it is a DESIGN
CHOICE, unsafe (log 19). Used in statements only. -/
def maxWidthSaturating (sent j : Nat) : Nat → Nat
  | 0 => min sent (2 ^ j)
  | t + 1 => min sent (2 ^ (maxWidthSaturating sent j t + 1) - 4)

/-- `CFGCHK j, t` (45_config_bound.md R190). -/
def execCfgchk (j : BitVec 4) (t : Nat) (s : State) : Host.Outcome State Fault Refusal :=
  if validConfig j.toNat t then answer s Results.none else raise s .invalidEncoding

/-- `MAXW j, t` (45_config_bound.md R196): the clamped bound. -/
def execMaxw (j : BitVec 4) (t : Nat) (s : State) : Host.Outcome State Fault Refusal :=
  if validConfig j.toNat t then answer s (Results.width (wlim j.toNat t)) else raise s .invalidEncoding

end Sys2Proof.Machine
end

