-- ==== Sys2Proof/Machine/PayloadCodec.lean ====
section
/-! DEFINITION. The payload codec: buckets, `encode_payload`, `decode_payload`, and the commands `ENCPAY`, `DECPAY`
(42_payload_codec.md). All arithmetic is exact over the naturals (R147). -/

namespace Sys2Proof.Machine

/-- `start(w) = 2^w - 2`, for `w >= 1` (42_payload_codec.md R140). -/
def bucketStart (w : Nat) : Nat := 2 ^ w - 2

/-- `end(w) = 2^(w+1) - 3`, for `w >= 1` (42_payload_codec.md R140). -/
def bucketEnd (w : Nat) : Nat := 2 ^ (w + 1) - 3

/-- The source's bucket test, both ends included (42_payload_codec.md R140, C1). -/
def inBucket (w m : Nat) : Bool := decide (bucketStart w ≤ m ∧ m ≤ bucketEnd w)

/-- `wof(m)`, the width of `m`, in its closed form `floor(log2(m + 2))` (42_payload_codec.md R142). -/
def wof (m : Nat) : Nat := Nat.log2 (m + 2)

/-- The source's linear search for the smallest width whose bucket holds `m`, from `w` upward over `fuel` candidates
(42_payload_codec.md R142, R143); it answers as `wof` does (`Laws/Codec.lean`). -/
def searchWidth (m : Nat) : Nat → Nat → Option Nat
  | 0, _ => none
  | fuel + 1, w => if inBucket w m then some w else searchWidth m fuel (w + 1)

/-- A `(width, payload)` pair: the codec's result, and an entry of the tier chain `CH` (10_state.md R29). -/
structure Tier where
  width : Nat
  payload : Nat
  deriving DecidableEq, Repr

/-- `encode_payload(value)`: the bucket of `value + 1` and the place in it (42_payload_codec.md R143). -/
def encodePayload (value : Nat) : Tier :=
  ⟨wof (value + 1), value + 1 - bucketStart (wof (value + 1))⟩

/-- `decode_payload(payload, width)` with a natural number as its target: `m - 1`, or `InvalidEncoding` if `m = 0`
(42_payload_codec.md R145; the form of the tier loop, 44_tier_decode.md R170). -/
def decodeNumber (payload width : Nat) : Except Failure Nat :=
  if bucketStart width + payload = 0 then .error .invalidEncoding else .ok (bucketStart width + payload - 1)

/-- `decode_payload(payload, width)` with the 64-bit value as its target: the overflow check besides
(42_payload_codec.md R145, R150; log 7). -/
def decodeValue (payload width : Nat) : Except Failure Nat :=
  match decodeNumber payload width with
  | .error k => .error k
  | .ok v => if v > Config.valueMax then .error .valueTooLarge else .ok v

/-- `ENCPAY value` (42_payload_codec.md R143). -/
def execEncpay (val : Word) (s : State) : Host.Outcome State Fault Refusal :=
  let e := encodePayload (valOperand val)
  answer s (Results.widthPayload e.width e.payload)

/-- `DECPAY payload, width` (42_payload_codec.md R145): the range of the width operand is checked first
(60_exceptions.md R222), and a payload that does not fit its width is used as it stands (U3; log 8). -/
def execDecpay (payload : Word) (wid : BitVec 7) (s : State) : Host.Outcome State Fault Refusal :=
  match bucketWidth wid with
  | none => raise s .cmdRefused
  | some width => conclude s ((decodeValue (valOperand payload) width).map Results.value)

end Sys2Proof.Machine
end

