-- ==== Sys2Proof/Machine/TierDecode.lean ====
section
/-! DEFINITION. The decoder: the tier loop over a private reader, the command `DECODE` (44_tier_decode.md), and the
same decoding over a bit string, for statements. -/

namespace Sys2Proof.Machine

/-- Step 3: `tiers` times, read a field of the current width and decode it to the next width, with the checks in the
order of 60_exceptions.md R221 (44_tier_decode.md R173, R177, R178; log 11). After the last turn the width is the
payload width. -/
def readTiers (lim : Nat) : Nat → Nat → Reader → Except Failure (Nat × Reader)
  | 0, width, r => .ok (width, r)
  | k + 1, width, r =>
    match r.readBits width with
    | (_, none) => .error .unexpectedEof
    | (r', some field) =>
      match decodeNumber field width with
      | .error e => .error e
      | .ok d =>
        if d = 0 then .error .invalidEncoding
        else if d > lim then .error .valueTooLarge
        else readTiers lim k d r'

/-- `decode(bytes, config)`: steps 1 to 5, the first that fails ends it; the value and the bits consumed
(44_tier_decode.md R170 to R178). The reader is a private one (10_state.md R37). -/
def decodeSteps (bytes : List Byte) (j t : Nat) : Except Failure (Nat × Nat) :=
  if validConfig j t = false then .error .invalidEncoding
  else
    match (Reader.fresh bytes).readBits j with
    | (_, none) => .error .unexpectedEof
    | (r, some js) =>
      if js + 1 > wlim j t then .error .valueTooLarge
      else
        match readTiers (wlim j t) t (js + 1) r with
        | .error e => .error e
        | .ok (payloadWidth, r) =>
          match r.readBits payloadWidth with
          | (_, none) => .error .unexpectedEof
          | (r, some field) =>
            match decodeValue field payloadWidth with
            | .error e => .error e
            | .ok v => .ok (v, r.pos)

/-- `DECODE bytes, j, t` (44_tier_decode.md R170). -/
def execDecode (bytes : List Byte) (j : BitVec 4) (t : Nat) (s : State) : Host.Outcome State Fault Refusal :=
  conclude s ((decodeSteps bytes j.toNat t).map fun vn => Results.valueBits vn.1 vn.2)

/-! ## Decoding over a bit string (20_memory.md R55), for statements -/

/-- A field of `n` bits from the head of a bit string: its value and the rest, none where fewer remain. -/
def takeField (n : Nat) (s : List Bool) : Option (Nat × List Bool) :=
  if n ≤ s.length then some (bitsVal (s.take n), s.drop n) else none

/-- The tier fields of a bit string: the payload width and the rest (30_encoding.md R81, R89, R91). -/
def parseTiers (lim : Nat) : Nat → Nat → List Bool → Except Failure (Nat × List Bool)
  | 0, width, s => .ok (width, s)
  | k + 1, width, s =>
    match takeField width s with
    | none => .error .unexpectedEof
    | some (field, rest) =>
      match decodeNumber field width with
      | .error e => .error e
      | .ok d =>
        if d = 0 then .error .invalidEncoding
        else if d > lim then .error .valueTooLarge
        else parseTiers lim k d rest

/-- The code word at the head of a bit string under a valid configuration: its value and its length in bits
(30_encoding.md R81, R85, R89, R91). -/
def parseCodeWord (s : List Bool) (j t : Nat) : Except Failure (Nat × Nat) :=
  match takeField j s with
  | none => .error .unexpectedEof
  | some (js, rest) =>
    if js + 1 > wlim j t then .error .valueTooLarge
    else
      match parseTiers (wlim j t) t (js + 1) rest with
      | .error e => .error e
      | .ok (payloadWidth, rest) =>
        match takeField payloadWidth rest with
        | none => .error .unexpectedEof
        | some (field, rest) =>
          match decodeValue field payloadWidth with
          | .error e => .error e
          | .ok v => .ok (v, s.length - rest.length)

end Sys2Proof.Machine
end

