-- ==== Sys2Proof/Machine/TierEncode.lean ====
section
/-! DEFINITION. The encoder: the tier chain, the code word, and the command `ENCODE` (43_tier_encode.md). -/

namespace Sys2Proof.Machine

/-- Step 4: `tiers` times, encode the current width and append the entry to the chain (43_tier_encode.md R158). The
chain comes back last-appended first, `CH[t]` at its head, with the topmost width. -/
def buildChain : Nat → Nat → List Tier → List Tier × Nat
  | 0, current, chain => (chain, current)
  | t + 1, current, chain =>
    let e := encodePayload current
    buildChain t e.width (e :: chain)

/-- Step 6, the middle of it: the chain entries from last-appended to first-appended (43_tier_encode.md R160). -/
def writeChain : List Tier → Writer → Writer
  | [], w => w
  | e :: chain, w => writeChain chain (Writer.writeBits e.payload e.width w)

/-- `encode(value, config)`: steps 1 to 6, the first that fails ends it (43_tier_encode.md R155 to R160). The writer
is a private one (10_state.md R37). -/
def encodeSteps (value j t : Nat) : Except Failure (List Byte) :=
  if validConfig j t = false then .error .invalidEncoding
  else
    let e := encodePayload value
    if e.width > wlim j t then .error .valueTooLarge
    else
      let (chain, current) := buildChain t e.width []
      if current = 0 ∨ current > 2 ^ j then .error .jumpstarterOverflow
      else
        let w := Writer.writeBits (current - 1) j Writer.empty
        let w := writeChain chain w
        let w := Writer.writeBits e.payload e.width w
        .ok w.finalBytes

/-- The chain entries of a value, `CH[t]` first (43_tier_encode.md R158). -/
def chainOf (value t : Nat) : List Tier := (buildChain t (encodePayload value).width []).1

/-- The topmost width of a value (43_tier_encode.md R159). -/
def topmostWidth (value t : Nat) : Nat := (buildChain t (encodePayload value).width []).2

/-- The code word of a value as a bit string (43_tier_encode.md R160, 30_encoding.md R80, R81). -/
def codeWord (value j t : Nat) : List Bool :=
  be (topmostWidth value t - 1) j ++ (chainOf value t).flatMap (fun e => be e.payload e.width) ++
    be (encodePayload value).payload (encodePayload value).width

/-- The fields of a code word as `(value, width)` pairs in stream order: jumpstarter, tiers `t` to 1, payload
(30_encoding.md R81). -/
def codeFields (value j t : Nat) : List (Nat × Nat) :=
  (topmostWidth value t - 1, j) :: (chainOf value t).map (fun e => (e.payload, e.width)) ++
    [((encodePayload value).payload, (encodePayload value).width)]

/-- The value can be encoded under the configuration (43_tier_encode.md R156, R157, R166). -/
def encodable (value j t : Nat) : Bool :=
  validConfig j t && decide ((encodePayload value).width ≤ wlim j t)

/-- `ENCODE value, j, t` (43_tier_encode.md R155). -/
def execEncode (val : Word) (j : BitVec 4) (t : Nat) (s : State) : Host.Outcome State Fault Refusal :=
  conclude s ((encodeSteps (valOperand val) j.toNat t).map Results.bytes)

end Sys2Proof.Machine
end

