-- ==== Sys2Proof/Machine/BitLength.lean ====
section
/-! DEFINITION. The length query `BITLEN` (46_bit_length.md). -/

namespace Sys2Proof.Machine

/-- `encoded_bit_length(value, config)`: encode, then decode, and report the bits consumed (46_bit_length.md R205). -/
def bitLengthSteps (value j t : Nat) : Except Failure Nat :=
  match encodeSteps value j t with
  | .error e => .error e
  | .ok bytes =>
    match decodeSteps bytes j t with
    | .error e => .error e
    | .ok (_, n) => .ok n

/-- `BITLEN value, j, t` (46_bit_length.md R205). -/
def execBitlen (val : Word) (j : BitVec 4) (t : Nat) (s : State) : Host.Outcome State Fault Refusal :=
  conclude s ((bitLengthSteps (valOperand val) j.toNat t).map Results.bits)

end Sys2Proof.Machine
end

