-- ==== Sys2Proof/Machine/BitReader.lean ====
section
/-! DEFINITION. The bit reader's commands: `BRNEW`, `RDBITS`, `BRPOS` (41_bit_reader.md). -/

namespace Sys2Proof.Machine

/-- `BRNEW bytes` (41_bit_reader.md R126): a live reader is discarded and a new one replaces it. -/
def execBrnew (bytes : List Byte) (s : State) : Host.Outcome State Fault Refusal :=
  answer (s.setReader (Reader.fresh bytes)) Results.none

/-- `RDBITS width` (41_bit_reader.md R128 to R130, R132): the cursor moves whether the read succeeds or fails. -/
def execRdbits (wid : BitVec 7) (s : State) : Host.Outcome State Fault Refusal :=
  if s.br.live = false then raise s .cmdRefused
  else
    match runWidth wid with
    | none => raise s .cmdRefused
    | some width =>
      match s.br.readBits width with
      | (r, some v) => answer (s.setReader r) (Results.value v)
      | (r, none) => raise (s.setReader r) .unexpectedEof

/-- `BRPOS` (41_bit_reader.md R131). -/
def execBrpos (s : State) : Host.Outcome State Fault Refusal :=
  if s.br.live = false then raise s .cmdRefused
  else answer s (Results.bits s.br.pos)

end Sys2Proof.Machine
end

