-- ==== Sys2Proof/Machine/BitWriter.lean ====
section
/-! DEFINITION. The bit writer's commands: `BWNEW`, `WRBITS`, `BWFIN` (40_bit_writer.md). -/

namespace Sys2Proof.Machine

/-- `BWNEW` (40_bit_writer.md R111): a live writer is discarded and an empty one replaces it. -/
def execBwnew (s : State) : Host.Outcome State Fault Refusal :=
  answer (s.setWriter Writer.empty) Results.none

/-- `WRBITS value, width` (40_bit_writer.md R112, R116, R117). -/
def execWrbits (val : Word) (wid : BitVec 7) (s : State) : Host.Outcome State Fault Refusal :=
  if s.bw.live = false then raise s .cmdRefused
  else
    match runWidth wid with
    | none => raise s .cmdRefused
    | some width => answer (s.setWriter (Writer.writeBits (valOperand val) width s.bw)) Results.none

/-- `BWFIN` (40_bit_writer.md R113, R115, R116). -/
def execBwfin (s : State) : Host.Outcome State Fault Refusal :=
  if s.bw.live = false then raise s .cmdRefused
  else answer (s.setWriter Writer.consumed) (Results.bytes s.bw.finalBytes)

end Sys2Proof.Machine
end

