-- ==== Sys2Proof/Machine/Dispatch.lean ====
section
/-! DEFINITION. The dispatch of a command to its meaning, one arm per constructor. -/

namespace Sys2Proof.Machine

/-- The outcome of one command in a state (10_state.md R20). -/
def exec (i : Instr) (s : State) : Host.Outcome State Fault Refusal :=
  match i with
  | .bwnew => Sys2Proof.Machine.execBwnew s
  | .wrbits val wid => Sys2Proof.Machine.execWrbits val wid s
  | .bwfin => Sys2Proof.Machine.execBwfin s
  | .brnew bytes => Sys2Proof.Machine.execBrnew bytes s
  | .rdbits wid => Sys2Proof.Machine.execRdbits wid s
  | .brpos => Sys2Proof.Machine.execBrpos s
  | .encpay val => Sys2Proof.Machine.execEncpay val s
  | .decpay payload wid => Sys2Proof.Machine.execDecpay payload wid s
  | .cfgchk j t => Sys2Proof.Machine.execCfgchk j t s
  | .maxw j t => Sys2Proof.Machine.execMaxw j t s
  | .encode val j t => Sys2Proof.Machine.execEncode val j t s
  | .decode bytes j t => Sys2Proof.Machine.execDecode bytes j t s
  | .bitlen val j t => Sys2Proof.Machine.execBitlen val j t s

end Sys2Proof.Machine
end

