-- ==== Sys2Proof/Machine/HostPort.lean ====
section
/-! DEFINITION. The block's side of the command port: the host's next event, the answer to a reserved word, the reset
event. -/

namespace Sys2Proof.Machine

/-- The state with the host's remaining events `rest` (log 1). -/
def State.setScript (s : State) (rest : List HostEvent) : State := { s with script := rest }

/-- The answer to a reserved command word: `CmdRefused`, no register changes (30_encoding.md R90,
60_exceptions.md R215). -/
def answerReserved (s : State) : Host.Outcome State Fault Refusal := raise s .cmdRefused

/-- The reset event: every register at its reset value and no response pending, the host's remaining events kept
(70_reset_and_hazards.md R240, R241). -/
def resetEvent (s : State) : Host.Outcome State Fault Refusal :=
  .next (State.reset.setScript s.script)

/-- Nothing is presented: the block waits and nothing changes (70_reset_and_hazards.md R241, 10_state.md R20; log 12). -/
def idle (s : State) : Host.Outcome State Fault Refusal := .next s

/-- The presentation of an opcode-table word with every operand port at zero or empty. -/
def tableRequest (w : Nat) : Request := Request.bare (BitVec.ofNat 8 w)

end Sys2Proof.Machine
end

