-- ==== Sys2Proof/Machine/Step.lean ====
section
/-! DEFINITION. One step of the block: the host's next event, whole (10_state.md R20, 20_memory.md R59). -/

namespace Sys2Proof.Machine

/-- One step: take the host's next event. A presented command is decoded and executed whole; a reserved word is
answered `CmdRefused`; a reset resets; with no event the block waits. -/
def step (s : State) : Host.Outcome State Fault Refusal :=
  match s.script with
  | [] => idle s
  | .reset :: rest => resetEvent (s.setScript rest)
  | .present p :: rest =>
    match decodeRequest p with
    | .ok i => exec i (s.setScript rest)
    | .error _ => answerReserved (s.setScript rest)

/-- `s` with the host presenting next the command word `w`, every operand port at zero or empty, before its other
events: the very next step runs it (log 1). `nbits` is 8 for every row of the table. -/
def State.withFetchWord (s : State) (_nbits w : Nat) : State :=
  s.setScript (.present (tableRequest w) :: s.script)

end Sys2Proof.Machine
end

