-- ==== Sys2Proof/Safety.lean ====
section
/-! DEFINITION. What claims about the block speak of: the invariants of the registers (10_state.md R22 to R28), what a
run lets the host observe (70_reset_and_hazards.md R263), and which command can answer what (60_exceptions.md R218). -/

namespace Sys2Proof.Machine

/-- The writer's invariant: the accumulator holds `cnt` bits (10_state.md R23), and a writer that is not live holds
nothing (R22, 40_bit_writer.md R113). -/
def Writer.Inv (w : Writer) : Prop :=
  w.acc.toNat < 2 ^ w.cnt.toNat ∧ (w.live = false → w = Writer.reset)

/-- The reader's invariant: the cursor lies within the input, the pending count is at most 7 between commands, the
pending byte is the last one fetched, 0 before any fetch, and a reader that is not live holds nothing
(10_state.md R25, R27, R28). -/
def Reader.Inv (r : Reader) : Prop :=
  r.idx ≤ r.src.length ∧ r.cnt.toNat ≤ 7 ∧ (r.idx = 0 → r.cur = 0 ∧ r.cnt = 0) ∧
    (0 < r.idx → r.src[r.idx - 1]? = some r.cur) ∧ (r.live = false → r = Reader.reset)

/-- A width on `RWID` is 0 to 64 (10_state.md R34). -/
def Response.Inv : Response → Prop
  | .ok r => ∀ w, r.rwid = some w → w.toNat ≤ Config.widthMax
  | .fail _ => True

/-- The state's invariant, after every command (10_state.md R24, R28, R34). -/
def State.Inv (s : State) : Prop :=
  s.bw.Inv ∧ s.br.Inv ∧ ∀ r, s.response = some r → r.Inv

/-- The bits of the input not yet consumed (10_state.md R28). -/
def Reader.remaining (r : Reader) : List Bool := (unpack r.src).drop r.pos

/-- The responses of the next `n` steps, one for each command presented: what a run lets the host observe
(70_reset_and_hazards.md R263). -/
def runResponses : Nat → State → List Response
  | 0, _ => []
  | n + 1, s =>
    match step s with
    | .next s' =>
      match s.script with
      | .present _ :: _ => s'.response.toList ++ runResponses n s'
      | _ => runResponses n s'
    | .fault _ => []
    | .refused _ => []

/-- A sequence of commands executed in order, each on the state the one before it left (20_memory.md R63). -/
def execAll : List Instr → State → Host.Outcome State Fault Refusal
  | [], s => .next s
  | i :: rest, s =>
    match exec i s with
    | .next s' => execAll rest s'
    | .fault f => .fault f
    | .refused r => .refused r

/-- A `WRBITS` command for a `(value, width)` run. -/
def writeRun (run : Nat × Nat) : Instr := .wrbits (BitVec.ofNat 64 run.1) (BitVec.ofNat 7 run.2)

/-- The commands the host presents in a list of events. -/
def presented : List HostEvent → List Request
  | [] => []
  | .present p :: rest => p :: presented rest
  | .reset :: rest => presented rest

end Sys2Proof.Machine

namespace Sys2Proof

open Sys2Proof.Machine

/-- The command is refused in this state: the cases of 60_exceptions.md R215, reserved words apart. -/
def Instr.refusedIn (s : State) : Instr → Bool
  | .wrbits _ wid => !s.bw.live || decide (64 < wid.toNat)
  | .bwfin => !s.bw.live
  | .rdbits wid => !s.br.live || decide (64 < wid.toNat)
  | .brpos => !s.br.live
  | .decpay _ wid => decide (wid.toNat = 0) || decide (64 < wid.toNat)
  | .bwnew => false
  | .brnew _ => false
  | .encpay _ => false
  | .cfgchk _ _ => false
  | .maxw _ _ => false
  | .encode _ _ _ => false
  | .decode _ _ _ => false
  | .bitlen _ _ _ => false

/-- The commands that neither read nor write `BW` or `BR` (10_state.md R37, R40; 20_memory.md R60). -/
def Instr.isPure : Instr → Bool
  | .encpay _ => true
  | .decpay _ _ => true
  | .cfgchk _ _ => true
  | .maxw _ _ => true
  | .encode _ _ _ => true
  | .decode _ _ _ => true
  | .bitlen _ _ _ => true
  | .bwnew => false
  | .wrbits _ _ => false
  | .bwfin => false
  | .brnew _ => false
  | .rdbits _ => false
  | .brpos => false

/-- Which failure kinds a command can answer, the reachable entries of the table of 60_exceptions.md R218. -/
def Instr.canFail : Instr → Failure → Bool
  | .wrbits _ _, k => k == .cmdRefused
  | .bwfin, k => k == .cmdRefused
  | .rdbits _, k => k == .unexpectedEof || k == .cmdRefused
  | .brpos, k => k == .cmdRefused
  | .decpay _ _, k => k == .invalidEncoding || k == .valueTooLarge || k == .cmdRefused
  | .cfgchk _ _, k => k == .invalidEncoding
  | .maxw _ _, k => k == .invalidEncoding
  | .encode _ _ _, k => k == .invalidEncoding || k == .valueTooLarge
  | .decode _ _ _, k => k == .invalidEncoding || k == .valueTooLarge || k == .unexpectedEof
  | .bitlen _ _ _, k => k == .invalidEncoding || k == .valueTooLarge
  | .bwnew, _ => false
  | .brnew _, _ => false
  | .encpay _, _ => false

end Sys2Proof
end

