-- ==== Sys2Proof/Certificates/Slice0/Obligations.lean ====
section
/-! DEFINITION. The statements about the model, for the provers. Each docstring names the rule it formalises; a clause that
is the model's own choice says so and names its log entry. -/

open Sys2Proof Sys2Proof.Machine

/-! ## Reset, the step, the command port -/

/-- 10_state.md R38: the registers and the response ports after reset. (That no command is presented is the model's:
log 1.) -/
def Obligations.ResetStateHoldsTabulatedValues : Prop :=
  State.reset.bw.live = false ∧ State.reset.bw.buf = [] ∧ State.reset.bw.acc = 0 ∧ State.reset.bw.cnt = 0 ∧
  State.reset.br.live = false ∧ State.reset.br.src = [] ∧ State.reset.br.idx = 0 ∧ State.reset.br.cur = 0 ∧
  State.reset.br.cnt = 0 ∧ State.reset.response = none

/-- The invariants of 10_state.md R22 to R28 and R34 hold at reset. -/
def Obligations.ResetStateSatisfiesInvariant : Prop := State.reset.Inv

/-- The invariants of 10_state.md R22 to R28 and R34 are kept by every step, from every state that meets them. -/
def Obligations.EveryStepKeepsInvariant : Prop :=
  ∀ s s' : State, s.Inv → step s = .next s' → s'.Inv

/-- 70_reset_and_hazards.md R240: the reset event puts every register at its reset value, whatever the state was, and
the primitives are refused in the reset state until `BWNEW` or `BRNEW`. (That the host's remaining events are kept is
the model's: log 1, log 5.) The reset is the spec's decision D6. -/
def Obligations.ResetEventRestoresReset : Prop :=
  (∀ (s : State) (rest : List HostEvent), s.script = .reset :: rest →
    step s = .next ⟨⟨false, [], 0, 0⟩, ⟨false, [], 0, 0, 0⟩, none, rest⟩) ∧
  (∀ (rest : List HostEvent) (val : Word) (wid : BitVec 7) (i : Instr),
    i ∈ [Instr.wrbits val wid, Instr.bwfin, Instr.rdbits wid, Instr.brpos] →
    exec i ⟨⟨false, [], 0, 0⟩, ⟨false, [], 0, 0, 0⟩, none, rest⟩ =
      .next ⟨⟨false, [], 0, 0⟩, ⟨false, [], 0, 0, 0⟩, some (.fail .cmdRefused), rest⟩)

/-- The block waits while the host presents nothing, and nothing changes (70_reset_and_hazards.md R241 for the wait
after reset, 10_state.md R20; the idle step itself is the model's: log 12). -/
def Obligations.BlockWaitsWithoutCommand : Prop := ∀ s : State, s.script = [] → step s = .next s

/-- 10_state.md R20: a step is the complete execution of the one presented command: it is `exec` of the decoded
command on the state with that event taken off the host's events. -/
def Obligations.StepRunsDecodedCommand : Prop :=
  ∀ (s : State) (p : Request) (rest : List HostEvent) (i : Instr),
    s.script = .present p :: rest → decodeRequest p = .ok i → step s = exec i { s with script := rest }

/-- 30_encoding.md R90: exactly the words `0x00`, `0x0E`, `0x0F` and `0x10` to `0xFF` are reserved, and a reserved
word is answered `CmdRefused` with no register changed. The answer is the spec's decision D24. -/
def Obligations.ReservedWordIsRefused : Prop :=
  (∀ p : Request, (∃ e, decodeRequest p = .error e) ↔
    (p.cmd = 0x00 ∨ p.cmd = 0x0E ∨ p.cmd = 0x0F ∨ 0x10 ≤ p.cmd.toNat)) ∧
  (∀ (s : State) (p : Request) (rest : List HostEvent), s.script = .present p :: rest →
    (p.cmd = 0x00 ∨ p.cmd = 0x0E ∨ p.cmd = 0x0F ∨ 0x10 ≤ p.cmd.toNat) →
    step s = .next { s with script := rest, response := some (.fail .cmdRefused) })

/-- The 13 command words of 30_encoding.md R88, bit by bit, decode to the commands they stand for. -/
def Obligations.CommandWordsDecodeAsTabulated : Prop :=
  decodeTableWord 8 0b00000001 = some .bwnew ∧ decodeTableWord 8 0b00000010 = some (.wrbits 0 0) ∧
  decodeTableWord 8 0b00000011 = some .bwfin ∧ decodeTableWord 8 0b00000100 = some (.brnew []) ∧
  decodeTableWord 8 0b00000101 = some (.rdbits 0) ∧ decodeTableWord 8 0b00000110 = some .brpos ∧
  decodeTableWord 8 0b00000111 = some (.encpay 0) ∧ decodeTableWord 8 0b00001000 = some (.decpay 0 0) ∧
  decodeTableWord 8 0b00001001 = some (.cfgchk 0 0) ∧ decodeTableWord 8 0b00001010 = some (.maxw 0 0) ∧
  decodeTableWord 8 0b00001011 = some (.encode 0 0 0) ∧ decodeTableWord 8 0b00001100 = some (.decode [] 0 0) ∧
  decodeTableWord 8 0b00001101 = some (.bitlen 0 0 0)

/-- Decode and encode agree (30_encoding.md R87, R88; 10_state.md R33): the encoding of a well-formed command fits the
ports and decodes to the command, and a presentation decodes to a command exactly when it has the command's word and
carries its operands on the ports its row names, whatever the other ports hold. -/
def Obligations.DecodeAndEncodeAgree : Prop :=
  (∀ (lim : PortLimits) (i : Instr), i.wellFormed lim = true →
    (encode i).fits lim = true ∧ decodeRequest (encode i) = .ok i) ∧
  (∀ (p : Request) (i : Instr), decodeRequest p = .ok i ↔ p.cmd = i.word ∧ i.carriedBy p = true) ∧
  (∀ (lim : PortLimits) (p : Request) (i : Instr), p.fits lim = true → decodeRequest p = .ok i →
    i.wellFormed lim = true)

/-- Every command completes, with exactly one response (10_state.md R34, 70_reset_and_hazards.md R263): from every
state it answers a next state that carries a response and leaves the host's events alone. -/
def Obligations.EveryCommandAnswers : Prop :=
  ∀ (i : Instr) (s : State), ∃ s' r, exec i s = .next s' ∧ s'.response = some r ∧ s'.script = s.script

/-- A run gives the host one response for each command it presents (70_reset_and_hazards.md R263). That resets may stand
among the commands of one list of events, and that a reset keeps the events after it, is the model's choice (log 1,
log 5): R263 has a reset start a new run. -/
def Obligations.RunGivesOneResponsePerCommand : Prop :=
  ∀ s : State, (runResponses s.script.length s).length = (presented s.script).length

/-! ## The bit writer -/

/-- 40_bit_writer.md R111: `BWNEW` from every state, a live writer included. That a live writer is replaced is the
spec's decision D7. -/
def Obligations.BwnewCreatesEmptyWriter : Prop :=
  (∀ p : Request, p.cmd = 0x01 → decodeRequest p = .ok .bwnew) ∧
  ∀ s : State, exec .bwnew s =
    .next { s with bw := ⟨true, [], 0, 0⟩, response := some (.ok ⟨none, none, none, none⟩) }

/-- 40_bit_writer.md R112: `WRBITS` is refused without a live writer or above 64 bits; otherwise it appends the low
`WID` bits of `VAL`, most significant first, to the writer's logical content, completes `(cnt + WID) div 8` bytes,
changes no byte already in the buffer, and changes nothing else. That a width of 0 succeeds is the spec's decision D9.
-/
def Obligations.WrbitsAppendsRun : Prop :=
  (∀ p : Request, p.cmd = 0x02 → decodeRequest p = .ok (.wrbits p.val p.wid)) ∧
  (∀ (s : State) (val : Word) (wid : BitVec 7), s.bw.live = false ∨ 64 < wid.toNat →
    exec (.wrbits val wid) s = .next { s with response := some (.fail .cmdRefused) }) ∧
  (∀ (s : State) (val : Word) (wid : BitVec 7), s.bw.live = true → wid.toNat ≤ 64 →
    ∃ w : Writer,
      exec (.wrbits val wid) s = .next { s with bw := w, response := some (.ok ⟨none, none, none, none⟩) } ∧
      w.live = true ∧ w.content = s.bw.content ++ be val.toNat wid.toNat ∧ s.bw.buf <+: w.buf ∧
      w.buf.length = s.bw.buf.length + (s.bw.cnt.toNat + wid.toNat) / 8 ∧
      w.cnt.toNat = (s.bw.cnt.toNat + wid.toNat) % 8 ∧ (s.bw.Inv → w.Inv))

/-- 40_bit_writer.md R117: only the low `WID` bits of `VAL` are written, and no failure is raised for the others. This
is the spec's decision D10, which U2 asks a reader to know of (log 6). -/
def Obligations.WrbitsIgnoresHighBits : Prop :=
  ∀ (s : State) (val val' : Word) (wid : BitVec 7), s.bw.live = true → wid.toNat ≤ 64 →
    val.toNat % 2 ^ wid.toNat = val'.toNat % 2 ^ wid.toNat →
    exec (.wrbits val wid) s = exec (.wrbits val' wid) s ∧
    ∃ w : Writer, exec (.wrbits val wid) s =
      .next { s with bw := w, response := some (.ok ⟨none, none, none, none⟩) }

/-- 40_bit_writer.md R113: `BWFIN` is refused without a live writer; otherwise it yields the packed logical content,
`ceil8` of its length in bytes, and consumes the writer. -/
def Obligations.BwfinYieldsPackedContent : Prop :=
  (∀ p : Request, p.cmd = 0x03 → decodeRequest p = .ok .bwfin) ∧
  (∀ s : State, s.bw.live = false → exec .bwfin s = .next { s with response := some (.fail .cmdRefused) }) ∧
  (∀ s : State, s.bw.live = true → exec .bwfin s =
    .next { s with
      bw := ⟨false, [], 0, 0⟩
      response := some (.ok ⟨none, none, none, some (pack (unpack s.bw.buf ++ be s.bw.acc.toNat s.bw.cnt.toNat))⟩) }) ∧
  (∀ s : State, (pack s.bw.content).length = ceil8 (8 * s.bw.buf.length + s.bw.cnt.toNat))

/-- 40_bit_writer.md R116: after `BWFIN`, and before the first `BWNEW`, the writer is not live; until the next `BWNEW`
it stays so, and `WRBITS` and `BWFIN` are refused with no state change. The answer is the spec's decision D8. -/
def Obligations.ConsumedWriterIsUnusable : Prop :=
  State.reset.bw.live = false ∧
  (∀ s s' : State, s.bw.live = true → exec .bwfin s = .next s' → s'.bw.live = false) ∧
  (∀ (s s' : State) (i : Instr), s.bw.live = false → i ≠ .bwnew → exec i s = .next s' → s'.bw = s.bw) ∧
  (∀ (s : State) (val : Word) (wid : BitVec 7), s.bw.live = false →
    exec (.wrbits val wid) s = .next { s with response := some (.fail .cmdRefused) } ∧
    exec .bwfin s = .next { s with response := some (.fail .cmdRefused) })

/-- 40_bit_writer.md R114: the bytes of a writer depend only on the concatenation of its runs: any list of `WRBITS`
between a `BWNEW` and a `BWFIN` yields the packed concatenation, and so do two lists with one concatenation. The spec
marks this as derived from R112 and R113. -/
def Obligations.WriterForgetsRunBoundaries : Prop :=
  (∀ (s : State) (runs : List (Word × BitVec 7)), (∀ r ∈ runs, r.2.toNat ≤ 64) →
    execAll (.bwnew :: runs.map (fun r => .wrbits r.1 r.2) ++ [.bwfin]) s =
      .next { s with
        bw := ⟨false, [], 0, 0⟩
        response := some (.ok ⟨none, none, none, some (pack (runs.flatMap fun r => be r.1.toNat r.2.toNat))⟩) }) ∧
  (∀ (s : State) (runs runs' : List (Word × BitVec 7)), (∀ r ∈ runs, r.2.toNat ≤ 64) →
    (∀ r ∈ runs', r.2.toNat ≤ 64) →
    (runs.flatMap fun r => be r.1.toNat r.2.toNat) = (runs'.flatMap fun r => be r.1.toNat r.2.toNat) →
    execAll (.bwnew :: runs.map (fun r => .wrbits r.1 r.2) ++ [.bwfin]) s =
      execAll (.bwnew :: runs'.map (fun r => .wrbits r.1 r.2) ++ [.bwfin]) s)

/-! ## The bit reader -/

/-- 41_bit_reader.md R126: `BRNEW` from every state, a live reader included; nothing is consumed yet. That a live
reader is replaced is the spec's decision D7. -/
def Obligations.BrnewLoadsSequence : Prop :=
  (∀ p : Request, p.cmd = 0x04 → decodeRequest p = .ok (.brnew p.inp)) ∧
  ∀ (s : State) (bytes : List Byte),
    exec (.brnew bytes) s =
      .next { s with br := ⟨true, bytes, 0, 0, 0⟩, response := some (.ok ⟨none, none, none, none⟩) } ∧
    (⟨true, bytes, 0, 0, 0⟩ : Reader).pos = 0

/-- 41_bit_reader.md R128, 20_memory.md R55: `RDBITS` is refused without a live reader or above 64 bits; where enough bits
remain it answers the value of the next `WID` bits of the unpacked input and moves the cursor past them; it answers
`UnexpectedEof` exactly where too few remain. Nothing but the cursor and the response changes. -/
def Obligations.RdbitsDeliversRun : Prop :=
  (∀ p : Request, p.cmd = 0x05 → decodeRequest p = .ok (.rdbits p.wid)) ∧
  (∀ (s : State) (wid : BitVec 7), s.br.live = false ∨ 64 < wid.toNat →
    exec (.rdbits wid) s = .next { s with response := some (.fail .cmdRefused) }) ∧
  (∀ (s : State) (wid : BitVec 7), s.br.Inv → s.br.live = true → wid.toNat ≤ 64 →
    s.br.pos + wid.toNat ≤ 8 * s.br.src.length →
    ∃ r : Reader,
      exec (.rdbits wid) s = .next
        { s with
          br := r
          response := some (.ok ⟨some (BitVec.ofNat 64 (bitsVal (((unpack s.br.src).drop s.br.pos).take wid.toNat))),
            none, none, none⟩) } ∧
      bitsVal (((unpack s.br.src).drop s.br.pos).take wid.toNat) < 2 ^ wid.toNat ∧
      r.live = true ∧ r.src = s.br.src ∧ r.pos = s.br.pos + wid.toNat ∧ r.Inv ∧
      r.idx = ceil8 (s.br.pos + wid.toNat)) ∧
  (∀ (s : State) (wid : BitVec 7), s.br.Inv → s.br.live = true → wid.toNat ≤ 64 →
    ((∃ s', exec (.rdbits wid) s = .next s' ∧ s'.response = some (.fail .unexpectedEof)) ↔
      8 * s.br.src.length - s.br.pos < wid.toNat))

/-- 41_bit_reader.md R129: a read that runs out of input consumes every remaining bit and fails; the reader stays live
at the end of its input, and nothing else changes. -/
def Obligations.RdbitsPastEndConsumesRest : Prop :=
  ∀ (s : State) (wid : BitVec 7), s.br.Inv → s.br.live = true → wid.toNat ≤ 64 →
    8 * s.br.src.length - s.br.pos < wid.toNat →
    ∃ r : Reader, exec (.rdbits wid) s = .next { s with br := r, response := some (.fail .unexpectedEof) } ∧
      r.live = true ∧ r.src = s.br.src ∧ r.idx = s.br.src.length ∧ r.cnt = 0 ∧ r.pos = 8 * s.br.src.length ∧ r.Inv

/-- 41_bit_reader.md R130: a reader that has failed or reached the end stays live and consistent: `BRPOS` answers `8 *
L`, `RDBITS 0` succeeds, every longer read fails again and changes nothing more. The spec marks this as derived from
R128 and R129. -/
def Obligations.ExhaustedReaderStaysConsistent : Prop :=
  (∀ (s s' : State) (wid : BitVec 7), s.br.Inv → exec (.rdbits wid) s = .next s' →
    s'.response = some (.fail .unexpectedEof) → s'.br.live = true ∧ s'.br.pos = 8 * s'.br.src.length ∧ s'.br.Inv) ∧
  (∀ s : State, s.br.Inv → s.br.live = true → s.br.pos = 8 * s.br.src.length →
    exec .brpos s = .next { s with response := some (.ok ⟨none, none, some (8 * s.br.src.length), none⟩) } ∧
    exec (.rdbits 0) s = .next { s with response := some (.ok ⟨some 0, none, none, none⟩) } ∧
    ∀ wid : BitVec 7, 1 ≤ wid.toNat → wid.toNat ≤ 64 →
      exec (.rdbits wid) s = .next { s with response := some (.fail .unexpectedEof) })

/-- 41_bit_reader.md R131, 10_state.md R28: `BRPOS` is refused without a live reader; otherwise it answers
`8 * idx - cnt`, which lies between 0 and `8 * L`, and changes no register. The last clause, that `idx` and `cnt` follow
from the position, is R28, which the spec marks as derived from R27 and R128. -/
def Obligations.BrposReportsPosition : Prop :=
  (∀ p : Request, p.cmd = 0x06 → decodeRequest p = .ok .brpos) ∧
  (∀ s : State, s.br.live = false → exec .brpos s = .next { s with response := some (.fail .cmdRefused) }) ∧
  (∀ s : State, s.br.live = true → exec .brpos s =
    .next { s with response := some (.ok ⟨none, none, some (8 * s.br.idx - s.br.cnt.toNat), none⟩) }) ∧
  (∀ s : State, s.br.Inv → 8 * s.br.idx - s.br.cnt.toNat ≤ 8 * s.br.src.length ∧
    s.br.idx = ceil8 (8 * s.br.idx - s.br.cnt.toNat) ∧ s.br.cnt.toNat = (8 - (8 * s.br.idx - s.br.cnt.toNat) % 8) % 8)

/-- 41_bit_reader.md R127, 44_tier_decode.md R183: empty input fails with `UnexpectedEof`, in the reader for every
read of one bit or more, in `DECODE` under every valid configuration; an invalid one is reported first. The clauses on
the reader are R127, which the spec marks as derived from R128. -/
def Obligations.EmptyInputFails : Prop :=
  (∀ (s : State) (wid : BitVec 7), 1 ≤ wid.toNat → wid.toNat ≤ 64 →
    execAll [.brnew [], .rdbits wid] s =
      .next { s with br := ⟨true, [], 0, 0, 0⟩, response := some (.fail .unexpectedEof) } ∧
    execAll [.brnew [], .rdbits wid, .brpos] s =
      .next { s with br := ⟨true, [], 0, 0, 0⟩, response := some (.ok ⟨none, none, some 0, none⟩) } ∧
    execAll [.brnew [], .brpos] s =
      .next { s with br := ⟨true, [], 0, 0, 0⟩, response := some (.ok ⟨none, none, some 0, none⟩) }) ∧
  (∀ (s : State) (j : BitVec 4) (t : Nat), 1 ≤ j.toNat → j.toNat ≤ 8 → 1 ≤ t →
    exec (.decode [] j t) s = .next { s with response := some (.fail .unexpectedEof) }) ∧
  (∀ (s : State) (j : BitVec 4) (t : Nat), ¬(1 ≤ j.toNat ∧ j.toNat ≤ 8 ∧ 1 ≤ t) →
    exec (.decode [] j t) s = .next { s with response := some (.fail .invalidEncoding) })

/-- 60_exceptions.md R215: `CmdRefused` is answered exactly in the listed cases, and no register changes. The answer
is the spec's decisions D8, D9, D24 and D25. -/
def Obligations.RefusalExactlyInListedCases : Prop :=
  (∀ (i : Instr) (s : State),
    (∃ s', exec i s = .next s' ∧ s'.response = some (.fail .cmdRefused)) ↔ i.refusedIn s = true) ∧
  (∀ (i : Instr) (s : State), i.refusedIn s = true →
    exec i s = .next { s with response := some (.fail .cmdRefused) }) ∧
  (∀ (s : State) (p : Request) (rest : List HostEvent) (e : ReservedWord), s.script = .present p :: rest →
    decodeRequest p = .error e → step s = .next { s with script := rest, response := some (.fail .cmdRefused) })

/-! ## The payload codec -/

/-- 42_payload_codec.md R141, R142: the buckets partition the natural numbers, adjacent and of doubling size; `wof` is
the unique width whose bucket holds `m`, and the source's search from 1 over 64 candidates finds it for every `m` the
block forms. The clauses on `wof` and the search are R142, which the spec marks as derived from R140 and R141; that the
model computes `wof` by the closed form is log 18. -/
def Obligations.BucketsPartitionNaturals : Prop :=
  bucketStart 1 = 0 ∧
  (∀ w, 1 ≤ w → bucketEnd w - bucketStart w + 1 = 2 ^ w ∧ bucketStart w ≤ bucketEnd w ∧
    bucketStart (w + 1) = bucketEnd w + 1) ∧
  (∀ m, 1 ≤ wof m ∧ bucketStart (wof m) ≤ m ∧ m ≤ bucketEnd (wof m)) ∧
  (∀ m w, 1 ≤ w → bucketStart w ≤ m → m ≤ bucketEnd w → w = wof m) ∧
  (∀ m, 2 ^ wof m ≤ m + 2 ∧ m + 2 < 2 ^ (wof m + 1)) ∧
  (∀ m, m ≤ 2 ^ 64 → searchWidth m 64 1 = some (wof m))

/-- 42_payload_codec.md R143, R144: `ENCPAY` answers the width of the bucket that holds `value + 1` (1 to 64) and the
place in it, which fits in that many bits; it succeeds on every value and changes no register. R143 says
in its pseudocode that the place fits; R144, which the spec marks as derived, gives the reason. -/
def Obligations.EncpaySelectsBucket : Prop :=
  (∀ p : Request, p.cmd = 0x07 → decodeRequest p = .ok (.encpay p.val)) ∧
  ∀ (s : State) (val : Word), ∃ w p : Nat,
    exec (.encpay val) s =
      .next { s with response := some (.ok ⟨some (BitVec.ofNat 64 p), some (BitVec.ofNat 7 w), none, none⟩) } ∧
    1 ≤ w ∧ w ≤ 64 ∧ 2 ^ w - 2 ≤ val.toNat + 1 ∧ val.toNat + 1 ≤ 2 ^ (w + 1) - 3 ∧
    p = val.toNat + 1 - (2 ^ w - 2) ∧ p < 2 ^ w

/-- 42_payload_codec.md R145: the four outcomes of `DECPAY`, on every payload and width; no register changes. The
kinds of the overflow and of the refusal are the spec's decisions D16 and D25 (log 7), and a payload that does not fit
its width is used as it stands (U3; log 8). -/
def Obligations.DecpayRecoversValue : Prop :=
  (∀ p : Request, p.cmd = 0x08 → decodeRequest p = .ok (.decpay p.val p.wid)) ∧
  ∀ (s : State) (payload : Word) (wid : BitVec 7),
    (wid.toNat = 0 ∨ 64 < wid.toNat →
      exec (.decpay payload wid) s = .next { s with response := some (.fail .cmdRefused) }) ∧
    (1 ≤ wid.toNat → wid.toNat ≤ 64 → 2 ^ wid.toNat - 2 + payload.toNat = 0 →
      exec (.decpay payload wid) s = .next { s with response := some (.fail .invalidEncoding) }) ∧
    (1 ≤ wid.toNat → wid.toNat ≤ 64 → 2 ^ 64 < 2 ^ wid.toNat - 2 + payload.toNat →
      exec (.decpay payload wid) s = .next { s with response := some (.fail .valueTooLarge) }) ∧
    (∀ v : Word, 1 ≤ wid.toNat → wid.toNat ≤ 64 → 2 ^ wid.toNat - 2 + payload.toNat = v.toNat + 1 →
      exec (.decpay payload wid) s = .next { s with response := some (.ok ⟨some v, none, none, none⟩) })

/-- 42_payload_codec.md R146: `DECPAY` undoes `ENCPAY` on every value, `ENCPAY` undoes `DECPAY` on every field that
fits its width, and the width is monotone in the value. The spec marks this as derived from R141, R143 and R145. -/
def Obligations.CodecCommandsAreInverse : Prop :=
  (∀ (s : State) (val : Word), ∃ (w : BitVec 7) (p : Word),
    exec (.encpay val) s = .next { s with response := some (.ok ⟨some p, some w, none, none⟩) } ∧
    exec (.decpay p w) s = .next { s with response := some (.ok ⟨some val, none, none, none⟩) }) ∧
  (∀ (s : State) (w : BitVec 7) (p v : Word), 1 ≤ w.toNat → w.toNat ≤ 64 → p.toNat < 2 ^ w.toNat →
    exec (.decpay p w) s = .next { s with response := some (.ok ⟨some v, none, none, none⟩) } →
    exec (.encpay v) s = .next { s with response := some (.ok ⟨some p, some w, none, none⟩) }) ∧
  (∀ v v' : Nat, v ≤ v' → (encodePayload v).width ≤ (encodePayload v').width) ∧
  (∀ v v' : Nat, encodePayload v = encodePayload v' → v = v')

/-- 42_payload_codec.md R148: the bucket boundaries, on the shifted magnitude and in terms of the operand. The spec
marks this as derived from R140 and R143 (C2). -/
def Obligations.BucketBoundariesSelectWidths : Prop :=
  (∀ w, 1 ≤ w → wof (bucketStart w) = w ∧ wof (bucketEnd w) = w ∧ wof (bucketEnd w + 1) = w + 1) ∧
  encodePayload 0 = ⟨1, 1⟩ ∧
  (∀ w, 2 ≤ w → encodePayload (2 ^ w - 3) = ⟨w, 0⟩ ∧ encodePayload (2 ^ (w + 1) - 4) = ⟨w, 2 ^ w - 1⟩) ∧
  (∀ w, 1 ≤ w → (encodePayload (bucketEnd w)).width = w + 1) ∧
  encodePayload (2 ^ 64 - 3) = ⟨64, 0⟩ ∧ encodePayload (2 ^ 64 - 1) = ⟨64, 2⟩

/-! ## The configuration and the bound -/

/-- 45_config_bound.md R190: `CFGCHK` accepts exactly `1 <= j <= 8` and `t >= 1`; no register changes. -/
def Obligations.CfgchkAcceptsExactlyValid : Prop :=
  (∀ p : Request, p.cmd = 0x09 → decodeRequest p = .ok (.cfgchk p.j p.t)) ∧
  (∀ (s : State) (j : BitVec 4) (t : Nat), 1 ≤ j.toNat → j.toNat ≤ 8 → 1 ≤ t →
    exec (.cfgchk j t) s = .next { s with response := some (.ok ⟨none, none, none, none⟩) }) ∧
  (∀ (s : State) (j : BitVec 4) (t : Nat), ¬(1 ≤ j.toNat ∧ j.toNat ≤ 8 ∧ 1 ≤ t) →
    exec (.cfgchk j t) s = .next { s with response := some (.fail .invalidEncoding) })

/-- 45_config_bound.md R195, R196: `MAXW` validates, and answers the clamped bound: the tabulated 4, 28 or 64, which
is `min(64, max_width_for_config(j, t))`. No register changes. The clamp is the spec's decisions D13 and D30 (log 9).
-/
def Obligations.MaxwReportsClampedBound : Prop :=
  (∀ p : Request, p.cmd = 0x0A → decodeRequest p = .ok (.maxw p.j p.t)) ∧
  (∀ (s : State) (j : BitVec 4) (t : Nat), ¬(1 ≤ j.toNat ∧ j.toNat ≤ 8 ∧ 1 ≤ t) →
    exec (.maxw j t) s = .next { s with response := some (.fail .invalidEncoding) }) ∧
  (∀ (s : State) (j : BitVec 4) (t : Nat), 1 ≤ j.toNat → j.toNat ≤ 8 → 1 ≤ t →
    ∃ b : Nat,
      exec (.maxw j t) s = .next { s with response := some (.ok ⟨none, some (BitVec.ofNat 7 b), none, none⟩) } ∧
      b = wlim j.toNat t ∧ b = min 64 (maxWidthForConfig j.toNat t) ∧
      b = (if j.toNat = 1 ∧ t = 1 then 4 else if j.toNat = 1 ∧ t = 2 ∨ j.toNat = 2 ∧ t = 1 then 28 else 64))

/-- 45_config_bound.md R197, first part: for a quantity of at most 64 the clamped bound compares as the exact bound
does, and as the source's saturating bound does whatever its sentinel of 64 or more (U1; log 9). The spec marks this
as derived from R193 and R195. That the saturating bound changes to the sentinel exactly where a step exceeds it is
the model's choice (N3; log 19). -/
def Obligations.ClampedBoundComparesAlike : Prop :=
  ∀ (j t x sent : Nat), 1 ≤ j → j ≤ 8 → 1 ≤ t → x ≤ 64 → 64 ≤ sent →
    (wlim j t < x ↔ maxWidthForConfig j t < x) ∧ (wlim j t < x ↔ maxWidthSaturating sent j t < x)

/-! ## The encoder -/

/-- 43_tier_encode.md R155 to R157, R160; 60_exceptions.md R220: the outcomes of `ENCODE`, with the priority of its checks:
an invalid configuration first, then a payload width above the bound, else the packed code word. No register changes. -/
def Obligations.EncodeAnswersCodeWord : Prop :=
  (∀ p : Request, p.cmd = 0x0B → decodeRequest p = .ok (.encode p.val p.j p.t)) ∧
  (∀ (s : State) (val : Word) (j : BitVec 4) (t : Nat), ¬(1 ≤ j.toNat ∧ j.toNat ≤ 8 ∧ 1 ≤ t) →
    exec (.encode val j t) s = .next { s with response := some (.fail .invalidEncoding) }) ∧
  (∀ (s : State) (val : Word) (j : BitVec 4) (t : Nat), 1 ≤ j.toNat → j.toNat ≤ 8 → 1 ≤ t →
    wlim j.toNat t < (encodePayload val.toNat).width →
    exec (.encode val j t) s = .next { s with response := some (.fail .valueTooLarge) }) ∧
  (∀ (s : State) (val : Word) (j : BitVec 4) (t : Nat), 1 ≤ j.toNat → j.toNat ≤ 8 → 1 ≤ t →
    (encodePayload val.toNat).width ≤ wlim j.toNat t →
    exec (.encode val j t) s =
      .next { s with response := some (.ok ⟨none, none, none, some (pack
        (be (topmostWidth val.toNat t - 1) j.toNat ++
          (chainOf val.toNat t).flatMap (fun e => be e.payload e.width) ++
          be (encodePayload val.toNat).payload (encodePayload val.toNat).width))⟩) })

/-- 43_tier_encode.md R165, 60_exceptions.md R213: once the bound check passes the topmost width fits the jumpstarter,
so no command ever answers `JumpstarterOverflow`. The first clause is R165, which the spec marks as derived from R157,
R158, R159 and R193. -/
def Obligations.JumpstarterOverflowNeverAnswered : Prop :=
  (∀ (val : Word) (j t : Nat), encodable val.toNat j t = true →
    1 ≤ topmostWidth val.toNat t ∧ topmostWidth val.toNat t ≤ 2 ^ j) ∧
  (∀ (i : Instr) (s s' : State), exec i s = .next s' → s'.response ≠ some (.fail .jumpstarterOverflow))

/-- 43_tier_encode.md R158, R163: the chain has exactly `tiers` entries; `CH[1]` as a function of the payload width,
`CH[k+1]` as a function of the width of `CH[k]`, `CH[k]` constant from 4 on, and the topmost widths. `CH[k]` is entry
`t - k` of `chainOf`, which lists the chain last-appended first. The table is R163, which the spec marks as derived
from R143 and R158. -/
def Obligations.TierChainIsTabulated : Prop :=
  ∀ (val : Word) (t : Nat), 1 ≤ t →
    let pw := (encodePayload val.toNat).width
    let ch := fun k => (chainOf val.toNat t)[t - k]?
    (chainOf val.toNat t).length = t ∧
    ch 1 = some (if pw ≤ 4 then ⟨2, pw - 1⟩ else if pw ≤ 12 then ⟨3, pw - 5⟩ else if pw ≤ 28 then ⟨4, pw - 13⟩
      else if pw ≤ 60 then ⟨5, pw - 29⟩ else ⟨6, pw - 61⟩) ∧
    (∀ (k : Nat) (e : Tier), 1 ≤ k → k < t → ch k = some e →
      2 ≤ e.width ∧ e.width ≤ 6 ∧
      ch (k + 1) = some (if e.width = 2 then ⟨2, 1⟩ else if e.width = 3 then ⟨2, 2⟩ else if e.width = 4 then ⟨2, 3⟩
        else if e.width = 5 then ⟨3, 0⟩ else ⟨3, 1⟩)) ∧
    (∀ k : Nat, 4 ≤ k → k ≤ t → ch k = some ⟨2, 1⟩) ∧
    (∃ e, ch t = some e ∧ topmostWidth val.toNat t = e.width) ∧
    (2 ≤ topmostWidth val.toNat t ∧ topmostWidth val.toNat t ≤ 6) ∧
    (2 ≤ t → topmostWidth val.toNat t ≤ 3) ∧ (3 ≤ t → topmostWidth val.toNat t = 2)

/-- 43_tier_encode.md R166: `ENCODE` succeeds exactly when the configuration is valid and the value is at most
`end(WLIM(j, t)) - 1`, and the greatest encodable values under the four classes of configurations. The spec marks this
as derived from R157 and R195. -/
def Obligations.EncodableValuesAreTabulated : Prop :=
  (∀ (s : State) (val : Word) (j : BitVec 4) (t : Nat),
    (∃ s' out, exec (.encode val j t) s = .next s' ∧ s'.response = some (.ok ⟨none, none, none, some out⟩)) ↔
      (1 ≤ j.toNat ∧ j.toNat ≤ 8 ∧ 1 ≤ t ∧ val.toNat ≤ bucketEnd (wlim j.toNat t) - 1)) ∧
  (∀ (val : Word) (j t : Nat), 1 ≤ j → j ≤ 8 → 1 ≤ t →
    (val.toNat ≤ bucketEnd (wlim j t) - 1 ↔
      val.toNat ≤ (if j = 1 ∧ t = 1 then 28 else if j = 1 ∧ t = 2 ∨ j = 2 ∧ t = 1 then 2 ^ 29 - 4 else 2 ^ 64 - 1)))

/-- 30_encoding.md R84, 43_tier_encode.md R164: the length of a code word is the sum of its fields' widths, within the
tabulated bounds, and `ENCODE` answers a sequence of `ceil8` of that many bytes. The spec marks this as derived from
R81, R160 and R163. -/
def Obligations.CodeWordLengthIsTabulated : Prop :=
  (∀ (val : Word) (j t : Nat), encodable val.toNat j t = true →
    let n := (codeWord val.toNat j t).length
    n = j + ((chainOf val.toNat t).map fun e => e.width).sum + (encodePayload val.toNat).width ∧
    4 ≤ n ∧
    (t = 1 → j + 2 + 1 ≤ n ∧ n ≤ j + 6 + 64) ∧ (t = 2 → j + 4 + 1 ≤ n ∧ n ≤ j + 6 + 3 + 64) ∧
    (3 ≤ t → j + 2 * t + 1 ≤ n ∧ n ≤ j + 6 + 3 + 2 * (t - 2) + 64)) ∧
  (∀ (s : State) (val : Word) (j : BitVec 4) (t : Nat), encodable val.toNat j.toNat t = true →
    ∃ out : List Byte,
      exec (.encode val j t) s = .next { s with response := some (.ok ⟨none, none, none, some out⟩) } ∧
      out = pack (codeWord val.toNat j.toNat t) ∧ out.length = ceil8 (codeWord val.toNat j.toNat t).length)

/-- 43_tier_encode.md R162: `ENCODE` is deterministic (its response depends on its operands alone), and under one
configuration no code word of a value is a prefix of the code word of another. -/
def Obligations.CodeWordsArePrefixFree : Prop :=
  (∀ (s s' u u' : State) (val : Word) (j : BitVec 4) (t : Nat), exec (.encode val j t) s = .next u →
    exec (.encode val j t) s' = .next u' → u.response = u'.response) ∧
  (∀ (val val' : Word) (j t : Nat), encodable val.toNat j t = true → encodable val'.toNat j t = true →
    codeWord val.toNat j t <+: codeWord val'.toNat j t → val = val')

/-- 43_tier_encode.md R160, 20_memory.md R53: `ENCODE` is the composition of the writer's commands: `BWNEW`, one `WRBITS`
for each field of the code word in stream order, and `BWFIN` yield the same bytes. -/
def Obligations.EncodeIsCompositionOfWrites : Prop :=
  ∀ (s : State) (val : Word) (j : BitVec 4) (t : Nat), encodable val.toNat j.toNat t = true →
    ∃ out : List Byte,
      exec (.encode val j t) s = .next { s with response := some (.ok ⟨none, none, none, some out⟩) } ∧
      execAll (.bwnew :: (codeFields val.toNat j.toNat t).map writeRun ++ [.bwfin]) s =
        .next { s with bw := ⟨false, [], 0, 0⟩, response := some (.ok ⟨none, none, none, some out⟩) }

/-! ## The decoder -/

/-- 44_tier_decode.md R170 to R178, 20_memory.md R55: on every input and configuration, `DECODE` over the registers of its
private reader answers what parsing the fields off the unpacked bit string answers, after the configuration check. No
register changes. -/
def Obligations.DecodeParsesBitStream : Prop :=
  (∀ p : Request, p.cmd = 0x0C → decodeRequest p = .ok (.decode p.inp p.j p.t)) ∧
  (∀ (s : State) (bytes : List Byte) (j : BitVec 4) (t : Nat), ¬(1 ≤ j.toNat ∧ j.toNat ≤ 8 ∧ 1 ≤ t) →
    exec (.decode bytes j t) s = .next { s with response := some (.fail .invalidEncoding) }) ∧
  (∀ (s : State) (bytes : List Byte) (j : BitVec 4) (t : Nat), 1 ≤ j.toNat → j.toNat ≤ 8 → 1 ≤ t →
    exec (.decode bytes j t) s = .next
      { s with
        response := some
          (match parseCodeWord (unpack bytes) j.toNat t with
          | .ok (v, n) => .ok ⟨some (BitVec.ofNat 64 v), none, some n, none⟩
          | .error k => .fail k) })

/-- 44_tier_decode.md R182: round trip. Every encodable value is decoded from its encoded sequence, consuming exactly
its code word. The round trip is the source's own property. The spec derives it, with the bounds on the length, from
R146, R160 and R172 to R176. -/
def Obligations.DecodeInvertsEncode : Prop :=
  ∀ (s : State) (val : Word) (j : BitVec 4) (t : Nat), encodable val.toNat j.toNat t = true →
    ∃ (out : List Byte) (n : Nat),
      exec (.encode val j t) s = .next { s with response := some (.ok ⟨none, none, none, some out⟩) } ∧
      exec (.decode out j t) s = .next { s with response := some (.ok ⟨some val, none, some n, none⟩) } ∧
      n = (codeWord val.toNat j.toNat t).length ∧ 4 ≤ n ∧ n ≤ 8 * out.length ∧ out.length = ceil8 n

/-- 44_tier_decode.md R184, 30_encoding.md R93: every accepted input is an encoder's output: the decoded value
encodes, and its code word is the first `n` bits of the input. The spec marks this as derived from R146 and R178. -/
def Obligations.AcceptedInputIsCanonical : Prop :=
  ∀ (s : State) (bytes : List Byte) (j : BitVec 4) (t : Nat) (val : Word) (n : Nat),
    exec (.decode bytes j t) s = .next { s with response := some (.ok ⟨some val, none, some n, none⟩) } →
    exec (.encode val j t) s =
      .next { s with response := some (.ok ⟨none, none, none, some (pack ((unpack bytes).take n))⟩) } ∧
    codeWord val.toNat j.toNat t = (unpack bytes).take n ∧ (codeWord val.toNat j.toNat t).length = n

/-- 44_tier_decode.md R180, R181: the bits after the code word are never read: any input that agrees with an accepted
one on the `n` bits it consumed, whatever follows them, gives the same response; trailing bytes are one case. The spec
marks this as derived from R66. -/
def Obligations.BitsAfterCodeWordAreIgnored : Prop :=
  (∀ (s : State) (bytes bytes' : List Byte) (j : BitVec 4) (t : Nat) (val : Word) (n : Nat),
    exec (.decode bytes j t) s = .next { s with response := some (.ok ⟨some val, none, some n, none⟩) } →
    (unpack bytes').take n = (unpack bytes).take n →
    exec (.decode bytes' j t) s = .next { s with response := some (.ok ⟨some val, none, some n, none⟩) }) ∧
  (∀ (s : State) (bytes extra : List Byte) (j : BitVec 4) (t : Nat) (val : Word) (n : Nat),
    exec (.decode bytes j t) s = .next { s with response := some (.ok ⟨some val, none, some n, none⟩) } →
    exec (.decode (bytes ++ extra) j t) s = .next { s with response := some (.ok ⟨some val, none, some n, none⟩) })

/-- 44_tier_decode.md R172, R177, R185: the defects a jumpstarter field shows, with their priority: input too short
for the field is `UnexpectedEof`; a width above the bound is `ValueTooLarge` even if the tier is missing too; a width
of 1 is `InvalidEncoding` if one more bit exists, else `UnexpectedEof`. The spec marks R185 as derived from R170, and
R177 rests on its decision D15 (log 11). -/
def Obligations.JumpstarterDefectsAreReported : Prop :=
  ∀ (s : State) (bytes : List Byte) (j : BitVec 4) (t : Nat), 1 ≤ j.toNat → j.toNat ≤ 8 → 1 ≤ t →
    let js := bitsVal ((unpack bytes).take j.toNat)
    (8 * bytes.length < j.toNat →
      exec (.decode bytes j t) s = .next { s with response := some (.fail .unexpectedEof) }) ∧
    (j.toNat ≤ 8 * bytes.length → wlim j.toNat t < js + 1 →
      exec (.decode bytes j t) s = .next { s with response := some (.fail .valueTooLarge) }) ∧
    (j.toNat < 8 * bytes.length → js = 0 →
      exec (.decode bytes j t) s = .next { s with response := some (.fail .invalidEncoding) }) ∧
    (j.toNat = 8 * bytes.length → js = 0 →
      exec (.decode bytes j t) s = .next { s with response := some (.fail .unexpectedEof) })

/-! ## The length query -/

/-- 46_bit_length.md R205, R206: `BITLEN` of an encodable value answers the sum of the widths of its code word's
fields; no register changes. The spec marks the closed form as derived from R164 and R176. -/
def Obligations.BitlenReportsCodeWordLength : Prop :=
  (∀ p : Request, p.cmd = 0x0D → decodeRequest p = .ok (.bitlen p.val p.j p.t)) ∧
  ∀ (s : State) (val : Word) (j : BitVec 4) (t : Nat), encodable val.toNat j.toNat t = true →
    exec (.bitlen val j t) s =
      .next { s with response := some (.ok ⟨none, none, some (j.toNat +
        ((chainOf val.toNat t).map fun e => e.width).sum + (encodePayload val.toNat).width), none⟩) }

/-- 46_bit_length.md R207: `BITLEN` fails exactly where `ENCODE` fails, with the same kind, and never with
`UnexpectedEof`. The spec marks this as derived from R182. -/
def Obligations.BitlenFailsAsEncode : Prop :=
  (∀ (s : State) (val : Word) (j : BitVec 4) (t : Nat) (k : Failure),
    exec (.bitlen val j t) s = .next { s with response := some (.fail k) } ↔
      exec (.encode val j t) s = .next { s with response := some (.fail k) }) ∧
  (∀ (s : State) (val : Word) (j : BitVec 4) (t : Nat), ¬(1 ≤ j.toNat ∧ j.toNat ≤ 8 ∧ 1 ≤ t) →
    exec (.bitlen val j t) s = .next { s with response := some (.fail .invalidEncoding) }) ∧
  (∀ (s : State) (val : Word) (j : BitVec 4) (t : Nat), 1 ≤ j.toNat → j.toNat ≤ 8 → 1 ≤ t →
    wlim j.toNat t < (encodePayload val.toNat).width →
    exec (.bitlen val j t) s = .next { s with response := some (.fail .valueTooLarge) }) ∧
  (∀ (s s' : State) (val : Word) (j : BitVec 4) (t : Nat), exec (.bitlen val j t) s = .next s' →
    s'.response ≠ some (.fail .unexpectedEof))

/-! ## Failures, frames, the whole machine -/

/-- 60_exceptions.md R211: the status codes; 6 and 7 are never produced. The codes are the spec's decision D4. -/
def Obligations.StatusCodesAsTabulated : Prop :=
  (∀ r : Results, (Response.ok r).status = 0) ∧ (Response.fail .invalidEncoding).status = 1 ∧
  (Response.fail .jumpstarterOverflow).status = 2 ∧ (Response.fail .valueTooLarge).status = 3 ∧
  (Response.fail .unexpectedEof).status = 4 ∧ (Response.fail .cmdRefused).status = 5 ∧
  (∀ r : Response, r.status ≠ 6 ∧ r.status ≠ 7)

/-- 60_exceptions.md R218: a command answers only the failure kinds that the table gives it as possible. The spec
marks the table as derived from R212 to R216. -/
def Obligations.FailureKindsAsTabulated : Prop :=
  ∀ (i : Instr) (s s' : State) (k : Failure), exec i s = .next s' → s'.response = some (.fail k) →
    i.canFail k = true

/-- 60_exceptions.md R223: an `RDBITS` that answers `UnexpectedEof` leaves the reader at the end of its input, live and
with its input kept, and every other failure, a refused `RDBITS` included, leaves the reader as it was; no failure
changes the writer. (The premise is the reader's invariant, 10_state.md R27, R28.) -/
def Obligations.FailureLeavesOnlyCursorMoved : Prop :=
  ∀ (i : Instr) (s s' : State) (k : Failure), s.br.Inv → exec i s = .next s' → s'.response = some (.fail k) →
    s'.bw = s.bw ∧ s'.script = s.script ∧
    ((∃ wid, i = .rdbits wid) ∧ k = .unexpectedEof →
      s'.br.live = s.br.live ∧ s'.br.src = s.br.src ∧ s'.br.idx = s.br.src.length ∧ s'.br.cnt = 0) ∧
    (¬((∃ wid, i = .rdbits wid) ∧ k = .unexpectedEof) → s'.br = s.br)

/-- 10_state.md R37, R40; 70_reset_and_hazards.md R242: the seven pure commands change no register, and their response
is the same in every state. R37 is the spec's decision D5, and R242 is derived from it. -/
def Obligations.PureCommandsDependOnOperandsOnly : Prop :=
  (∀ (i : Instr) (s s' : State), i.isPure = true → exec i s = .next s' → s'.bw = s.bw ∧ s'.br = s.br) ∧
  (∀ (i : Instr) (s u s' u' : State), i.isPure = true → exec i s = .next s' → exec i u = .next u' →
    s'.response = u'.response)

/-- 10_state.md R40, the columns of writes: which command writes which register; every other register is unchanged,
and so are the host's events. The reader's input is written by `BRNEW` alone (R26). The spec marks the matrix as
derived from the rules of the commands. -/
def Obligations.CommandsKeepRegistersTheyDoNotWrite : Prop :=
  ∀ (i : Instr) (s s' : State), exec i s = .next s' →
    s'.script = s.script ∧
    ((i ≠ .bwnew ∧ (∀ val wid, i ≠ .wrbits val wid) ∧ i ≠ .bwfin) → s'.bw = s.bw) ∧
    ((∀ val wid, i = .wrbits val wid → s'.bw.live = s.bw.live)) ∧
    (((∀ bytes, i ≠ .brnew bytes) ∧ (∀ wid, i ≠ .rdbits wid)) → s'.br = s.br) ∧
    ((∀ bytes, i ≠ .brnew bytes) → s'.br.live = s.br.live ∧ s'.br.src = s.br.src)
end

