-- ==== Sys2Proof/Laws/Bits.lean ====
section
/-! SUPPORT. Laws of bit strings, packing and byte memories. -/

namespace Sys2Proof.Machine

@[simp] theorem be_zero (v : Nat) : be v 0 = [] := rfl
theorem be_succ (v n : Nat) : be v (n + 1) = v.testBit n :: be v n := rfl

@[simp] theorem be_length (v n : Nat) : (be v n).length = n := by
  induction n with
  | zero => rfl
  | succ n ih => simp [be_succ, ih]

/-- Only the low `n` bits of a number are in its run of `n` bits. -/
theorem be_congr {v u n : Nat} (h : ∀ i < n, v.testBit i = u.testBit i) : be v n = be u n := by
  induction n with
  | zero => rfl
  | succ n ih => rw [be_succ, be_succ, h n (by omega), ih fun i hi => h i (by omega)]

@[simp] theorem be_mod (v n : Nat) : be (v % 2 ^ n) n = be v n :=
  be_congr fun i hi => by simp [Nat.testBit_mod_two_pow, hi]

/-- A run of `n + 1` bits is the run of its high `n` bits and then its lowest bit. -/
theorem be_snoc (v n : Nat) : be v (n + 1) = be (v / 2) n ++ [v.testBit 0] := by
  induction n with
  | zero => simp [be_succ]
  | succ n ih => rw [be_succ, ih, be_succ (v / 2) n, Nat.testBit_div_two]; rfl

/-- Cutting a run in two: its high `a` bits, then its low `b` bits (40_bit_writer.md R114). -/
theorem be_split (v a b : Nat) : be v (a + b) = be (v / 2 ^ b) a ++ be v b := by
  induction b generalizing v with
  | zero => simp
  | succ b ih =>
    rw [← Nat.add_assoc, be_snoc, ih, be_snoc v b, ← List.append_assoc, Nat.div_div_eq_div_mul,
      Nat.pow_succ, Nat.mul_comm]

theorem bitsVal_snoc (s : List Bool) (b : Bool) : bitsVal (s ++ [b]) = bitsVal s * 2 + b.toNat := by
  simp [bitsVal]

@[simp] theorem bitsVal_nil : bitsVal [] = 0 := rfl

theorem bitsVal_lt (s : List Bool) : bitsVal s < 2 ^ s.length := by
  induction s using List.reverseRecOn with
  | nil => simp
  | append_singleton s b ih =>
    rw [bitsVal_snoc, List.length_append, List.length_singleton, Nat.pow_succ]
    have := Bool.toNat_le b
    omega

/-- Reading back a run gives its low bits. -/
@[simp] theorem bitsVal_be (v n : Nat) : bitsVal (be v n) = v % 2 ^ n := by
  induction n generalizing v with
  | zero => simp [Nat.mod_one]
  | succ n ih =>
    rw [be_snoc, bitsVal_snoc, ih, Nat.pow_succ, Nat.mul_comm (2 ^ n) 2, Nat.mod_mul,
      Nat.testBit_zero]
    have : v % 2 = 0 ∨ v % 2 = 1 := by omega
    rcases this with h | h <;> simp [h] <;> omega

/-- A bit string is the run of its own value. -/
@[simp] theorem be_bitsVal (s : List Bool) : be (bitsVal s) s.length = s := by
  induction s using List.reverseRecOn with
  | nil => rfl
  | append_singleton s b ih =>
    rw [List.length_append, List.length_singleton, be_snoc, bitsVal_snoc]
    have h1 : (bitsVal s * 2 + b.toNat) / 2 = bitsVal s := by have := Bool.toNat_le b; omega
    have h2 : (bitsVal s * 2 + b.toNat).testBit 0 = b := by
      rw [Nat.testBit_zero]; cases b <;> simp
    rw [h1, h2, ih]

@[simp] theorem unpack_nil : unpack [] = [] := rfl
@[simp] theorem unpack_cons (b : Byte) (m : List Byte) : unpack (b :: m) = be b.toNat 8 ++ unpack m := rfl
@[simp] theorem unpack_append (m n : List Byte) : unpack (m ++ n) = unpack m ++ unpack n := by
  simp [unpack]

@[simp] theorem unpack_length (m : List Byte) : (unpack m).length = 8 * m.length := by
  induction m with
  | nil => rfl
  | cons b m ih => rw [unpack_cons, List.length_append, be_length, ih, List.length_cons]; omega

@[simp] theorem pack_nil : pack [] = [] := rfl

@[simp] theorem pack_length (s : List Bool) : (pack s).length = ceil8 s.length := by simp [pack]

/-- The first eight bits make the first byte. -/
theorem pack_append_eight (x s : List Bool) (hx : x.length = 8) :
    pack (x ++ s) = BitVec.ofNat 8 (bitsVal x) :: pack s := by
  have hc : ceil8 (x ++ s).length = ceil8 s.length + 1 := by
    rw [List.length_append, hx]; unfold ceil8; omega
  rw [pack, hc, List.range_succ_eq_map, List.map_cons, List.map_map, pack]
  congr 1
  · unfold packByte
    congr 2
    match x, hx with
    | [a, b, c, d, e, f, g, h], _ => rfl
  · refine List.map_congr_left fun i _ => ?_
    simp only [Function.comp, packByte]
    congr 3
    funext r
    rw [List.getD_append_right _ _ _ _ (by omega)]
    congr 1
    omega

/-- Packing whole bytes and a rest gives the bytes and the packed rest. -/
theorem pack_unpack_append (m : List Byte) (s : List Bool) : pack (unpack m ++ s) = m ++ pack s := by
  induction m with
  | nil => rfl
  | cons b m ih =>
    rw [unpack_cons, List.append_assoc, pack_append_eight _ _ (be_length _ _), ih, bitsVal_be,
      List.cons_append]
    congr 1
    apply BitVec.eq_of_toNat_eq
    have := b.isLt
    simp
    omega

@[simp] theorem pack_unpack (m : List Byte) : pack (unpack m) = m := by
  simpa using pack_unpack_append m []

/-- A last partial byte of `c` bits: the bits high, zeros low (20_memory.md R54). -/
theorem pack_be_short (v c : Nat) (h0 : 0 < c) (h8 : c < 8) :
    pack (be v c) = [BitVec.ofNat 8 (v * 2 ^ (8 - c))] := by
  have hc : ceil8 (be v c).length = 1 := by rw [be_length]; unfold ceil8; omega
  rw [pack, hc]
  simp only [List.range_one, List.map_cons, List.map_nil, List.cons.injEq, and_true]
  have hbits : ((List.range 8).map fun r => (be v c).getD (8 * 0 + r) false)
      = be (v * 2 ^ (8 - c)) 8 := by
    have htwo : ∀ i, (v * 2).testBit i = (decide (1 ≤ i) && v.testBit (i - 1)) := fun i => by
      have := Nat.testBit_mul_two_pow v i 1
      rwa [pow_one] at this
    obtain rfl | rfl | rfl | rfl | rfl | rfl | rfl :
        c = 1 ∨ c = 2 ∨ c = 3 ∨ c = 4 ∨ c = 5 ∨ c = 6 ∨ c = 7 := by omega
    all_goals simp [-Nat.reducePow, -Nat.testBit_zero, be_succ, List.range_succ, Nat.testBit_mul_two_pow, htwo]
  rw [packByte, hbits, bitsVal_be]
  apply BitVec.eq_of_toNat_eq
  simp

/-- `unpack (pack s)` is `s` and then the pad bits, all zero (20_memory.md R54). -/
theorem unpack_pack (s : List Bool) :
    unpack (pack s) = s ++ List.replicate (8 * ceil8 s.length - s.length) false := by
  induction hn : s.length using Nat.strong_induction_on generalizing s with
  | _ n ih =>
    by_cases h8 : 8 ≤ s.length
    · have hs : s = s.take 8 ++ s.drop 8 := (List.take_append_drop 8 s).symm
      have hl : (s.take 8).length = 8 := by simp; omega
      have hd : (s.drop 8).length = s.length - 8 := by simp
      have hp : pack s = BitVec.ofNat 8 (bitsVal (s.take 8)) :: pack (s.drop 8) := by
        conv_lhs => rw [hs]
        exact pack_append_eight _ _ hl
      have hb : be (BitVec.ofNat 8 (bitsVal (s.take 8))).toNat 8 = s.take 8 := by
        have := bitsVal_lt (s.take 8)
        rw [hl] at this
        rw [BitVec.toNat_ofNat, Nat.mod_eq_of_lt this]
        conv_rhs => rw [← be_bitsVal (s.take 8), hl]
      rw [hp, unpack_cons, hb, ih _ (by omega) _ rfl, hd, ← List.append_assoc, ← hs, ← hn]
      congr 2
      unfold ceil8
      omega
    · by_cases h0 : s = []
      · subst h0; simp at hn; subst hn; rfl
      · have hpos : 0 < s.length := List.length_pos_iff.mpr h0
        have hp : pack s = [BitVec.ofNat 8 (bitsVal s * 2 ^ (8 - s.length))] := by
          conv_lhs => rw [← be_bitsVal s]
          exact pack_be_short _ _ hpos (by omega)
        have hlt : bitsVal s * 2 ^ (8 - s.length) < 2 ^ 8 := by
          have := bitsVal_lt s
          calc _ < 2 ^ s.length * 2 ^ (8 - s.length) := Nat.mul_lt_mul_of_pos_right this (by positivity)
            _ = 2 ^ 8 := by rw [← Nat.pow_add]; congr 1; omega
        rw [hp, unpack_cons, unpack_nil, List.append_nil, BitVec.toNat_ofNat, Nat.mod_eq_of_lt hlt]
        have e8 : be (bitsVal s * 2 ^ (8 - s.length)) 8
            = be (bitsVal s * 2 ^ (8 - s.length)) (s.length + (8 - s.length)) := by
          congr 1; omega
        rw [e8, be_split, Nat.mul_div_cancel _ (by positivity), be_bitsVal, ← hn]
        congr 1
        have hc : 8 * ceil8 s.length - s.length = 8 - s.length := by unfold ceil8; omega
        rw [hc]
        refine List.ext_getElem (by simp) fun i h1 h2 => ?_
        have key : ∀ n k, be (k * 2 ^ n) n = List.replicate n false := by
          intro n k
          rw [← be_mod]
          simp only [Nat.mul_mod_left]
          induction n with
          | zero => rfl
          | succ n ih => rw [be_succ, ih]; simp [List.replicate_succ]
        simp [key]

/-! ## The byte memories -/

/-- A read after an append: the appended byte at the old length, every other byte as before. -/
theorem memRead_append (m : List Byte) (b : Byte) (i : Nat) :
    memRead (memAppend m b) i = if i = m.length then some b else memRead m i := by
  unfold memRead memAppend
  split
  · subst i; simp
  · rename_i h
    rcases Nat.lt_or_ge i m.length with hi | hi
    · rw [List.getElem?_append_left hi]
    · rw [List.getElem?_eq_none (by simp; omega), List.getElem?_eq_none (by omega)]

/-- Every byte memory is in its canonical form, so every operation keeps it (log 13). -/
theorem memCells_wf (m : List Byte) : cellsWf (memCells m) = true := by
  simp [cellsWf, memCells, List.map_fst_zip]

/-- Equal cells are equal memories: the form is canonical. -/
theorem memCells_injective {m n : List Byte} (h : memCells m = memCells n) : m = n := by
  have := congrArg (List.map Prod.snd) h
  simpa [memCells, List.map_snd_zip] using this

end Sys2Proof.Machine
end

