-- ==== Sys2Proof/Laws/State.lean ====
section
/-! SUPPORT. One lemma per field per update of the state, and the shared answers' one-line laws. -/

namespace Sys2Proof.Machine

@[simp] theorem respond_bw (s : State) (r : Response) : (s.respond r).bw = s.bw := rfl
@[simp] theorem respond_br (s : State) (r : Response) : (s.respond r).br = s.br := rfl
@[simp] theorem respond_response (s : State) (r : Response) : (s.respond r).response = some r := rfl
@[simp] theorem respond_script (s : State) (r : Response) : (s.respond r).script = s.script := rfl

@[simp] theorem setWriter_bw (s : State) (w : Writer) : (s.setWriter w).bw = w := rfl
@[simp] theorem setWriter_br (s : State) (w : Writer) : (s.setWriter w).br = s.br := rfl
@[simp] theorem setWriter_response (s : State) (w : Writer) : (s.setWriter w).response = s.response := rfl
@[simp] theorem setWriter_script (s : State) (w : Writer) : (s.setWriter w).script = s.script := rfl

@[simp] theorem setReader_bw (s : State) (r : Reader) : (s.setReader r).bw = s.bw := rfl
@[simp] theorem setReader_br (s : State) (r : Reader) : (s.setReader r).br = r := rfl
@[simp] theorem setReader_response (s : State) (r : Reader) : (s.setReader r).response = s.response := rfl
@[simp] theorem setReader_script (s : State) (r : Reader) : (s.setReader r).script = s.script := rfl

@[simp] theorem setScript_bw (s : State) (h : List HostEvent) : (s.setScript h).bw = s.bw := rfl
@[simp] theorem setScript_br (s : State) (h : List HostEvent) : (s.setScript h).br = s.br := rfl
@[simp] theorem setScript_response (s : State) (h : List HostEvent) : (s.setScript h).response = s.response := rfl
@[simp] theorem setScript_script (s : State) (h : List HostEvent) : (s.setScript h).script = h := rfl

@[simp] theorem reset_bw : State.reset.bw = Writer.reset := rfl
@[simp] theorem reset_br : State.reset.br = Reader.reset := rfl
@[simp] theorem reset_response : State.reset.response = none := rfl
@[simp] theorem reset_script : State.reset.script = [] := rfl

@[simp] theorem answer_eq (s : State) (r : Results) : answer s r = .next (s.respond (.ok r)) := rfl
@[simp] theorem raise_eq (s : State) (k : Failure) : raise s k = .next (s.respond (.fail k)) := rfl
@[simp] theorem conclude_ok (s : State) (r : Results) : conclude s (.ok r) = .next (s.respond (.ok r)) := rfl
@[simp] theorem conclude_error (s : State) (k : Failure) :
    conclude s (.error k) = .next (s.respond (.fail k)) := rfl

/-- All that a register-free command can do: the response port changes and nothing else. -/
theorem conclude_cases {s s' : State} {e : Except Failure Results} (h : conclude s e = .next s') :
    ∃ r, s' = s.respond r ∧ ((∃ x, e = .ok x ∧ r = .ok x) ∨ ∃ k, e = .error k ∧ r = .fail k) := by
  cases e with
  | ok x => exact ⟨.ok x, by simpa using h.symm, .inl ⟨x, rfl, rfl⟩⟩
  | error k => exact ⟨.fail k, by simpa using h.symm, .inr ⟨k, rfl, rfl⟩⟩

/-- All that a step can do: execute the decoded command, refuse a reserved word, reset, or wait. -/
theorem step_cases (s : State) :
    (s.script = [] ∧ step s = .next s) ∨
    (∃ rest, s.script = .reset :: rest ∧ step s = .next (State.reset.setScript rest)) ∨
    (∃ p rest i, s.script = .present p :: rest ∧ decodeRequest p = .ok i ∧
      step s = exec i (s.setScript rest)) ∨
    (∃ p rest e, s.script = .present p :: rest ∧ decodeRequest p = .error e ∧
      step s = .next ((s.setScript rest).respond (.fail .cmdRefused))) := by
  unfold step
  split
  · exact .inl ⟨‹_›, rfl⟩
  · exact .inr (.inl ⟨_, ‹_›, rfl⟩)
  · rename_i p rest hs
    cases hd : decodeRequest p with
    | ok i => exact .inr (.inr (.inl ⟨p, rest, i, hs, hd, rfl⟩))
    | error e => exact .inr (.inr (.inr ⟨p, rest, e, hs, hd, rfl⟩))

end Sys2Proof.Machine
end

