-- ==== Sys2Proof/Laws/Codec.lean ====
section
/-! SUPPORT. What the payload codec's functions do, once (42_payload_codec.md). -/

namespace Sys2Proof.Machine

theorem two_le_two_pow {w : Nat} (h : 1 ≤ w) : 2 ≤ 2 ^ w := by
  obtain ⟨k, rfl⟩ : ∃ k, w = k + 1 := ⟨w - 1, by omega⟩
  have := Nat.one_le_two_pow (n := k)
  rw [Nat.pow_succ]; omega

theorem one_le_wof (m : Nat) : 1 ≤ wof m := by
  have h : m + 2 ≠ 0 := by omega
  exact (Nat.le_log2 h).mpr (by omega)

/-- The closed form of the bucket test: `m` has width `w` exactly when it lies in the bucket of `w`
(42_payload_codec.md R142). -/
theorem wof_eq_iff (m w : Nat) (hw : 1 ≤ w) : wof m = w ↔ bucketStart w ≤ m ∧ m ≤ bucketEnd w := by
  have h0 : m + 2 ≠ 0 := by omega
  have h2 := two_le_two_pow hw
  have hs : 2 ^ (w + 1) = 2 ^ w * 2 := Nat.pow_succ 2 w
  have hlo : w ≤ wof m ↔ 2 ^ w ≤ m + 2 := Nat.le_log2 h0
  have hhi : w + 1 ≤ wof m ↔ 2 ^ (w + 1) ≤ m + 2 := Nat.le_log2 h0
  unfold bucketStart bucketEnd
  omega

theorem wof_bounds (m : Nat) : bucketStart (wof m) ≤ m ∧ m ≤ bucketEnd (wof m) :=
  (wof_eq_iff m _ (one_le_wof m)).mp rfl

theorem wof_mono {m n : Nat} (h : m ≤ n) : wof m ≤ wof n := by
  have h0 : n + 2 ≠ 0 := by omega
  have := (wof_bounds m).1
  have h2 := two_le_two_pow (one_le_wof m)
  exact (Nat.le_log2 h0).mpr (by unfold bucketStart at this; omega)

/-- The linear search of the source finds the closed form's width (42_payload_codec.md R142). -/
theorem searchWidth_eq_wof (m : Nat) (fuel w : Nat) (hw : 1 ≤ w) (hlo : w ≤ wof m) (hf : wof m < w + fuel) :
    searchWidth m fuel w = some (wof m) := by
  induction fuel generalizing w with
  | zero => omega
  | succ fuel ih =>
    rw [searchWidth, inBucket]
    split
    · rename_i h
      rw [(wof_eq_iff m w hw).mpr (by simpa using h)]
    · rename_i h
      have hne : wof m ≠ w := fun he => h (by simpa using (wof_eq_iff m w hw).mp he)
      exact ih (w + 1) (by omega) (by omega) (by omega)

/-- All that `encode_payload` promises (42_payload_codec.md R143, R144). -/
theorem encodePayload_spec (v : Nat) :
    1 ≤ (encodePayload v).width ∧
    bucketStart (encodePayload v).width + (encodePayload v).payload = v + 1 ∧
    (encodePayload v).payload < 2 ^ (encodePayload v).width := by
  have hb := wof_bounds (v + 1)
  have h1 := one_le_wof (v + 1)
  have h2 := two_le_two_pow h1
  have hs : 2 ^ (wof (v + 1) + 1) = 2 ^ wof (v + 1) * 2 := Nat.pow_succ 2 _
  simp only [encodePayload]
  unfold bucketStart bucketEnd at *
  omega

theorem encodePayload_width (v : Nat) : (encodePayload v).width = wof (v + 1) := rfl

/-- A number below `2^(w+1) - 3` has a width of at most `w`. -/
theorem encodePayload_width_le {v w : Nat} (hw : 1 ≤ w) (h : v + 1 ≤ bucketEnd w) :
    (encodePayload v).width ≤ w := by
  rw [encodePayload_width, ← (wof_eq_iff (bucketEnd w) w hw).mpr ⟨?_, le_refl _⟩]
  · exact wof_mono h
  · have := two_le_two_pow hw
    have : 2 ^ (w + 1) = 2 ^ w * 2 := Nat.pow_succ 2 w
    unfold bucketStart bucketEnd; omega

/-- The width of a `u64` is at most 64 (42_payload_codec.md R143). -/
theorem encodePayload_width_le_64 {v : Nat} (h : v < 2 ^ 64) : (encodePayload v).width ≤ 64 :=
  encodePayload_width_le (by omega) (by unfold bucketEnd; omega)

/-- The three outcomes of `decode_payload` on a natural number (42_payload_codec.md R145). -/
theorem decodeNumber_ok_iff {p w v : Nat} :
    decodeNumber p w = .ok v ↔ bucketStart w + p = v + 1 := by
  unfold decodeNumber
  split
  · rename_i h; constructor
    · intro h'; simp at h'
    · intro h'; omega
  · rename_i h; constructor
    · intro h'; simp at h'; omega
    · intro h'; simp; omega

theorem decodeNumber_error {p w : Nat} {k : Failure} (h : decodeNumber p w = .error k) :
    k = .invalidEncoding ∧ bucketStart w + p = 0 := by
  unfold decodeNumber at h
  split at h
  · rename_i h0; simp at h; exact ⟨h.symm, h0⟩
  · simp at h

/-- `decode_payload` undoes `encode_payload` (42_payload_codec.md R146). -/
@[simp] theorem decodeNumber_encodePayload (v : Nat) :
    decodeNumber (encodePayload v).payload (encodePayload v).width = .ok v :=
  decodeNumber_ok_iff.mpr (encodePayload_spec v).2.1

/-- A field that fits its width and decodes to a number is the field that number encodes to
(42_payload_codec.md R146). -/
theorem encodePayload_of_decodeNumber {p w v : Nat} (hw : 1 ≤ w) (hp : p < 2 ^ w)
    (h : decodeNumber p w = .ok v) : encodePayload v = ⟨w, p⟩ := by
  rw [decodeNumber_ok_iff] at h
  have h2 := two_le_two_pow hw
  have hs : 2 ^ (w + 1) = 2 ^ w * 2 := Nat.pow_succ 2 w
  have hwof : wof (v + 1) = w :=
    (wof_eq_iff _ _ hw).mpr (by unfold bucketStart bucketEnd at *; omega)
  simp only [encodePayload, hwof]
  congr 1
  omega

theorem decodeValue_ok_iff {p w v : Nat} :
    decodeValue p w = .ok v ↔ bucketStart w + p = v + 1 ∧ v < 2 ^ 64 := by
  unfold decodeValue
  cases h : decodeNumber p w with
  | error k =>
    have := (decodeNumber_error h).2
    simp; omega
  | ok u =>
    rw [decodeNumber_ok_iff] at h
    simp only [Config.valueMax]
    split
    · simp; omega
    · simp; omega

/-- Which failure `decode_payload` answers, and when (42_payload_codec.md R145, R150). -/
theorem decodeValue_error {p w : Nat} {k : Failure} (h : decodeValue p w = .error k) :
    (k = .invalidEncoding ∧ bucketStart w + p = 0) ∨ (k = .valueTooLarge ∧ 2 ^ 64 < bucketStart w + p) := by
  unfold decodeValue at h
  cases h' : decodeNumber p w with
  | error k' =>
    rw [h'] at h; simp at h; subst h
    exact .inl (decodeNumber_error h')
  | ok u =>
    rw [h'] at h
    rw [decodeNumber_ok_iff] at h'
    simp only [Config.valueMax] at h
    split at h
    · simp at h; exact .inr ⟨h.symm, by omega⟩
    · simp at h

end Sys2Proof.Machine
end

