-- ==== Sys2Proof/Laws/Reader.lean ====
section
/-! SUPPORT. What the reader's operations do, once: a read delivers the next bits of the unpacked input, or consumes
what remains and fails (41_bit_reader.md R128, R129; 10_state.md R28). -/

namespace Sys2Proof.Machine

/-- The working invariant of a reader, inside a read as well as between commands: the cursor lies within the input,
the pending bits are in the last byte fetched (10_state.md R27, R28). -/
structure Reader.Cursor (r : Reader) : Prop where
  idx_le : r.idx ≤ r.src.length
  cnt_le : r.cnt.toNat ≤ 8
  start : r.idx = 0 → r.cur = 0 ∧ r.cnt = 0
  fetched : 0 < r.idx → r.src[r.idx - 1]? = some r.cur

theorem Reader.Inv.cursor {r : Reader} (h : r.Inv) : r.Cursor :=
  ⟨h.1, by have := h.2.1; omega, h.2.2.1, h.2.2.2.1⟩

theorem Reader.Cursor.cnt_pos_idx {r : Reader} (h : r.Cursor) (hc : 0 < r.cnt.toNat) : 0 < r.idx := by
  rcases Nat.eq_zero_or_pos r.idx with h0 | h0
  · have := (h.start h0).2; simp [this] at hc
  · exact h0

theorem Reader.Cursor.pos_add_cnt {r : Reader} (h : r.Cursor) : r.pos + r.cnt.toNat = 8 * r.idx := by
  have := h.cnt_le
  rcases Nat.eq_zero_or_pos r.idx with h0 | h0
  · simp [Reader.pos, h0, (h.start h0).2]
  · unfold Reader.pos; omega

theorem Reader.Cursor.pos_le {r : Reader} (h : r.Cursor) : r.pos ≤ 8 * r.src.length := by
  have := h.idx_le; unfold Reader.pos; omega

/-- Stream bit `8 * i + k` is bit position `7 - k` of byte `i` (20_memory.md R51). -/
theorem unpack_getElem? (m : List Byte) (i k : Nat) (hk : k < 8) :
    (unpack m)[8 * i + k]? = (m[i]?).map fun b => b.toNat.testBit (7 - k) := by
  induction m generalizing i with
  | nil => simp
  | cons b m ih =>
    rw [unpack_cons]
    cases i with
    | zero =>
      rw [List.getElem?_append_left (by simp; omega)]
      obtain rfl | rfl | rfl | rfl | rfl | rfl | rfl | rfl :
        k = 0 ∨ k = 1 ∨ k = 2 ∨ k = 3 ∨ k = 4 ∨ k = 5 ∨ k = 6 ∨ k = 7 := by omega
      all_goals rfl
    | succ i =>
      rw [List.getElem?_append_right (by simp; omega), be_length,
        show 8 * (i + 1) + k - 8 = 8 * i + k by omega, ih, List.getElem?_cons_succ]

/-- The head of the remaining bits is the top bit of the pending byte. -/
theorem remaining_of_pending {r : Reader} (h : r.Cursor) (hc : 0 < r.cnt.toNat) :
    r.remaining = r.topBit :: (unpack r.src).drop (r.pos + 1) := by
  have h8 := h.cnt_le
  have hi := h.cnt_pos_idx hc
  have hp := h.pos_add_cnt
  have hidx : r.pos = 8 * (r.idx - 1) + (8 - r.cnt.toNat) := by omega
  have hget : (unpack r.src)[r.pos]? = some r.topBit := by
    rw [hidx, unpack_getElem? _ _ _ (by omega), h.fetched hi, Option.map_some, Reader.topBit]
    congr 2
    omega
  obtain ⟨hlt, he⟩ := List.getElem?_eq_some_iff.mp hget
  rw [Reader.remaining, List.drop_eq_getElem_cons hlt, he]

theorem remaining_length {r : Reader} : r.remaining.length = 8 * r.src.length - r.pos := by
  simp [Reader.remaining]

@[simp] theorem dropBit_src (r : Reader) : r.dropBit.src = r.src := rfl
@[simp] theorem dropBit_live (r : Reader) : r.dropBit.live = r.live := rfl
@[simp] theorem dropBit_idx (r : Reader) : r.dropBit.idx = r.idx := rfl
@[simp] theorem dropBit_cur (r : Reader) : r.dropBit.cur = r.cur := rfl
theorem dropBit_cnt (r : Reader) : r.dropBit.cnt.toNat = r.cnt.toNat - 1 := by
  have : r.cnt.toNat < 16 := r.cnt.isLt
  simp [Reader.dropBit]; omega

/-- What taking one bit does: it fails only at the end of the input, and otherwise delivers the next bit. -/
theorem fetch_spec {r : Reader} (h : r.Cursor) :
    (r.fetch = none ∧ r.remaining = [] ∧ r.cnt = 0 ∧ r.idx = r.src.length) ∨
    (∃ r', r.fetch = some r' ∧ r'.dropBit.Cursor ∧ r'.dropBit.cnt.toNat ≤ 7 ∧ r'.live = r.live ∧
      r'.src = r.src ∧ r'.dropBit.pos = r.pos + 1 ∧ r.remaining = r'.topBit :: r'.dropBit.remaining) := by
  unfold Reader.fetch
  by_cases hc : r.cnt = 0
  · have hp := h.pos_add_cnt
    simp only [hc, BitVec.ofNat_eq_ofNat, BitVec.toNat_ofNat, Nat.zero_mod, Nat.add_zero] at hp
    simp only [hc, if_true]
    unfold memRead
    cases hb : r.src[r.idx]? with
    | none =>
      have hlen := List.getElem?_eq_none_iff.mp hb
      have : r.idx = r.src.length := le_antisymm h.idx_le hlen
      exact .inl ⟨rfl, by rw [Reader.remaining, hp, List.drop_eq_nil_iff]; simp; omega, trivial, this⟩
    | some b =>
      obtain ⟨hlt, he⟩ := List.getElem?_eq_some_iff.mp hb
      refine .inr ⟨_, rfl, ?_⟩
      set r' : Reader := { r with cur := b, idx := r.idx + 1, cnt := 8 } with hr'
      have hcur : r'.Cursor := ⟨hlt, by simp [hr'], fun h0 => by simp [hr'] at h0, fun _ => by simpa [hr'] using hb⟩
      have hpos : r'.pos = r.pos := by simp [Reader.pos, hr', hc]; omega
      have hdp : r'.dropBit.pos = r.pos + 1 := by
        have hd : r'.dropBit.cnt.toNat = 7 := by rw [dropBit_cnt]; rfl
        rw [Reader.pos, hd, dropBit_idx]
        have : r'.idx = r.idx + 1 := rfl
        omega
      refine ⟨⟨hlt, by rw [dropBit_cnt]; simp [hr'], fun h0 => by simp [hr'] at h0,
        fun _ => by simpa [hr'] using hb⟩, by rw [dropBit_cnt]; simp [hr'], rfl, rfl, hdp, ?_⟩
      have := remaining_of_pending hcur (by simp [hr'])
      rw [Reader.remaining, hpos] at this
      rw [Reader.remaining, this, Reader.remaining, hdp, dropBit_src]
  · have hpos : 0 < r.cnt.toNat := by
      rcases Nat.eq_zero_or_pos r.cnt.toNat with h0 | h0
      · exact absurd (BitVec.eq_of_toNat_eq (by simpa using h0)) hc
      · exact h0
    have hp := h.pos_add_cnt
    have h8 := h.cnt_le
    have hi := h.cnt_pos_idx hpos
    have hdp : r.dropBit.pos = r.pos + 1 := by
      have := dropBit_cnt r
      simp only [Reader.pos, dropBit_idx, this] at hp ⊢
      omega
    simp only [hc, if_false]
    refine .inr ⟨r, rfl, ⟨h.idx_le, by rw [dropBit_cnt]; omega, fun h0 => absurd h0 (by simp; omega),
      fun h0 => h.fetched h0⟩, by rw [dropBit_cnt]; omega, rfl, rfl, hdp, ?_⟩
    rw [remaining_of_pending h hpos, Reader.remaining, hdp, dropBit_src]

theorem bitsVal_cons_acc (acc : Nat) (s : List Bool) (b : Bool) :
    acc * 2 ^ (s.length + 1) + bitsVal (b :: s) = (acc * 2 + b.toNat) * 2 ^ s.length + bitsVal s := by
  have h : ∀ (s : List Bool) (a : Nat), s.foldl (fun a b => a * 2 + b.toNat) a = a * 2 ^ s.length + bitsVal s := by
    intro s
    induction s using List.reverseRecOn with
    | nil => simp
    | append_singleton s b ih =>
      intro a
      rw [List.foldl_append, ih a, bitsVal_snoc, List.length_append, List.length_singleton, Nat.pow_succ]
      simp; ring
  have hb : bitsVal (b :: s) = b.toNat * 2 ^ s.length + bitsVal s := by
    rw [bitsVal, List.foldl_cons, h]; simp
  rw [hb, Nat.pow_succ]; ring

/-- The read loop, once: with enough bits it delivers them and moves past them; otherwise it consumes what remains
and fails (41_bit_reader.md R128, R129). -/
theorem readLoop_spec (n : Nat) : ∀ (acc : Nat) (r : Reader), r.Cursor →
    (n ≤ r.remaining.length ∧ ∃ r', Reader.readLoop n acc r =
        (r', some (acc * 2 ^ n + bitsVal (r.remaining.take n))) ∧ r'.Cursor ∧
        (r.cnt.toNat ≤ 7 ∨ 0 < n → r'.cnt.toNat ≤ 7) ∧ r'.live = r.live ∧ r'.src = r.src ∧ r'.pos = r.pos + n) ∨
    (r.remaining.length < n ∧ ∃ r', Reader.readLoop n acc r = (r', none) ∧ r'.Cursor ∧ r'.live = r.live ∧
      r'.src = r.src ∧ r'.idx = r.src.length ∧ r'.cnt = 0) := by
  induction n with
  | zero =>
    intro acc r h
    exact .inl ⟨Nat.zero_le _, r, by simp [Reader.readLoop], h, by simp, rfl, rfl, rfl⟩
  | succ n ih =>
    intro acc r h
    rcases fetch_spec h with ⟨hf, hr, hc, hi⟩ | ⟨r1, hf, hcur, hcnt, hl, hs, hp, hr⟩
    · exact .inr ⟨by simp [hr], r, by simp [Reader.readLoop, hf], h, rfl, rfl, hi, hc⟩
    · rw [Reader.readLoop, hf]
      simp only
      rcases ih (acc * 2 + r1.topBit.toNat) r1.dropBit hcur with
        ⟨hn, r', he, hc', h7, hl', hs', hp'⟩ | ⟨hn, r', he, hc', hl', hs', hi', hz'⟩
      · refine .inl ⟨by rw [hr, List.length_cons]; omega, r', ?_, hc', fun _ => h7 (.inl hcnt), ?_, ?_, ?_⟩
        · rw [he, hr, List.take_succ_cons]
          have := bitsVal_cons_acc acc (r1.dropBit.remaining.take n) r1.topBit
          rw [List.length_take, Nat.min_eq_left hn] at this
          rw [this]
        · rw [hl', dropBit_live, hl]
        · rw [hs', dropBit_src, hs]
        · rw [hp', hp]; omega
      · refine .inr ⟨by rw [hr, List.length_cons]; omega, r', he, hc', ?_, ?_, ?_, hz'⟩
        · rw [hl', dropBit_live, hl]
        · rw [hs', dropBit_src, hs]
        · rw [hi', dropBit_src, hs]

/-- A successful read (41_bit_reader.md R128). -/
theorem readBits_ok {r : Reader} (h : r.Cursor) {n : Nat} (hn : n ≤ r.remaining.length) :
    ∃ r', r.readBits n = (r', some (bitsVal (r.remaining.take n))) ∧ r'.Cursor ∧
      (r.cnt.toNat ≤ 7 → r'.cnt.toNat ≤ 7) ∧ r'.live = r.live ∧ r'.src = r.src ∧ r'.pos = r.pos + n := by
  rcases readLoop_spec n 0 r h with ⟨-, r', he, hc, h7, hl, hs, hp⟩ | ⟨hlt, -⟩
  · exact ⟨r', by rw [Reader.readBits, he]; simp, hc, fun h' => h7 (.inl h'), hl, hs, hp⟩
  · omega

/-- A read that runs out of input (41_bit_reader.md R129). -/
theorem readBits_eof {r : Reader} (h : r.Cursor) {n : Nat} (hn : r.remaining.length < n) :
    ∃ r', r.readBits n = (r', none) ∧ r'.Cursor ∧ r'.live = r.live ∧ r'.src = r.src ∧
      r'.idx = r.src.length ∧ r'.cnt = 0 := by
  rcases readLoop_spec n 0 r h with ⟨hle, -⟩ | ⟨-, r', he, hc, hl, hs, hi, hz⟩
  · omega
  · exact ⟨r', he, hc, hl, hs, hi, hz⟩

/-- The bits after a read are the rest of the bits before it. -/
theorem remaining_after {r r' : Reader} {n : Nat} (hs : r'.src = r.src) (hp : r'.pos = r.pos + n) :
    r'.remaining = r.remaining.drop n := by
  rw [Reader.remaining, Reader.remaining, hs, hp, List.drop_drop]

theorem fresh_cursor (b : List Byte) : (Reader.fresh b).Cursor :=
  ⟨Nat.zero_le _, by simp [Reader.fresh], fun _ => ⟨rfl, rfl⟩, fun h => by simp [Reader.fresh] at h⟩

@[simp] theorem fresh_pos (b : List Byte) : (Reader.fresh b).pos = 0 := rfl
@[simp] theorem fresh_remaining (b : List Byte) : (Reader.fresh b).remaining = unpack b := rfl

theorem fresh_inv (b : List Byte) : (Reader.fresh b).Inv :=
  ⟨Nat.zero_le _, by simp [Reader.fresh], fun _ => ⟨rfl, rfl⟩, fun h => by simp [Reader.fresh] at h,
    fun h => by simp [Reader.fresh] at h⟩

theorem reader_reset_inv : Reader.reset.Inv :=
  ⟨Nat.zero_le _, by simp [Reader.reset], fun _ => ⟨rfl, rfl⟩, fun h => by simp [Reader.reset] at h, fun _ => rfl⟩

/-- A read of a live reader keeps its invariant, whether it succeeds or fails. -/
theorem readBits_inv {r : Reader} (h : r.Inv) (hl : r.live = true) (n : Nat) : (r.readBits n).1.Inv := by
  have h7 := h.2.1
  by_cases hn : n ≤ r.remaining.length
  · obtain ⟨r', he, hc, hc7, hl', -, -⟩ := readBits_ok h.cursor hn
    rw [he]
    exact ⟨hc.idx_le, hc7 h7, hc.start, hc.fetched, fun hf => by simp [hl', hl] at hf⟩
  · obtain ⟨r', he, hc, hl', -, -, hz⟩ := readBits_eof h.cursor (by omega : r.remaining.length < n)
    rw [he]
    exact ⟨hc.idx_le, by simp [hz], hc.start, hc.fetched, fun hf => by simp [hl', hl] at hf⟩

end Sys2Proof.Machine
end

