-- ==== Sys2Proof/Laws/Writer.lean ====
section
/-! SUPPORT. What the writer's operations do, once: a bit and a run append to the logical content, finalize packs it
(40_bit_writer.md R112, R113; 10_state.md R24). -/

namespace Sys2Proof.Machine

/-- The two cases of a pushed bit: the partial byte grows, or it completes and is appended. -/
theorem pushBit_cases (w : Writer) (b : Bool) :
    (w.cnt.toNat < 7 ∧ (w.pushBit b).live = w.live ∧ (w.pushBit b).buf = w.buf ∧
      (w.pushBit b).acc.toNat = (w.acc.toNat * 2 + b.toNat) % 256 ∧
      (w.pushBit b).cnt.toNat = w.cnt.toNat + 1) ∨
    (w.cnt.toNat = 7 ∧
      w.pushBit b = ⟨w.live, w.buf ++ [BitVec.ofNat 8 (w.acc.toNat * 2 + b.toNat)], 0, 0⟩) := by
  have h7 : w.cnt.toNat < 8 := w.cnt.isLt
  unfold Writer.pushBit
  by_cases h : w.cnt.toNat + 1 = 8
  · exact .inr ⟨by omega, by simp [h, memAppend]⟩
  · refine .inl ⟨by omega, ?_⟩
    simp only [h, if_false, BitVec.toNat_ofNat, true_and]
    omega

theorem testBit_shiftIn_succ (a : Nat) (b : Bool) (i : Nat) :
    (a * 2 + b.toNat).testBit (i + 1) = a.testBit i := by
  rw [Nat.testBit_succ]
  congr 1
  have := Bool.toNat_le b
  omega

theorem testBit_shiftIn_zero (a : Nat) (b : Bool) : (a * 2 + b.toNat).testBit 0 = b := by
  rw [Nat.testBit_zero]; cases b <;> simp

theorem be_shiftIn (a n : Nat) (b : Bool) : be (a * 2 + b.toNat) (n + 1) = be a n ++ [b] := by
  rw [be_snoc, testBit_shiftIn_zero]
  congr 2
  have := Bool.toNat_le b
  omega

/-- A run of at most 8 bits of a number taken modulo 256. -/
theorem be_mod_byte (v n : Nat) (h : n ≤ 8) : be (v % 256) n = be v n :=
  be_congr fun i hi => by
    rw [show (256 : Nat) = 2 ^ 8 from rfl, Nat.testBit_mod_two_pow]
    simp; omega

/-- A pushed bit is appended to the logical content, in every state of the registers. -/
@[simp] theorem pushBit_content (w : Writer) (b : Bool) : (w.pushBit b).content = w.content ++ [b] := by
  rcases pushBit_cases w b with ⟨h, -, h2, h3, h4⟩ | ⟨h, e⟩
  · rw [Writer.content, Writer.content, h2, h3, h4, be_mod_byte _ _ (by omega), be_shiftIn, List.append_assoc]
  · rw [e, Writer.content, Writer.content, h]
    simp only [unpack_append, unpack_cons, unpack_nil, List.append_nil, BitVec.toNat_ofNat,
      BitVec.ofNat_eq_ofNat, Nat.zero_mod, be_zero, List.append_assoc]
    rw [show (2 : Nat) ^ 8 = 256 from rfl, be_mod_byte _ _ (le_refl 8), be_shiftIn]

@[simp] theorem pushBit_live (w : Writer) (b : Bool) : (w.pushBit b).live = w.live := by
  rcases pushBit_cases w b with ⟨-, h, -⟩ | ⟨-, e⟩
  · exact h
  · rw [e]

/-- The accumulator holds only the pending bits after a pushed bit. -/
theorem pushBit_acc_lt (w : Writer) (b : Bool) (h : w.acc.toNat < 2 ^ w.cnt.toNat) :
    (w.pushBit b).acc.toNat < 2 ^ (w.pushBit b).cnt.toNat := by
  rcases pushBit_cases w b with ⟨h7, -, -, h3, h4⟩ | ⟨-, e⟩
  · rw [h3, h4, Nat.pow_succ]
    have := Bool.toNat_le b
    have := Nat.mod_le (w.acc.toNat * 2 + b.toNat) 256
    omega
  · rw [e]; simp

/-- A pushed bit changes no byte already in the buffer. -/
theorem pushBit_buf (w : Writer) (b : Bool) : w.buf <+: (w.pushBit b).buf := by
  rcases pushBit_cases w b with ⟨-, -, h, -⟩ | ⟨-, e⟩
  · rw [h]
  · rw [e]; exact List.prefix_append _ _

/-- `write_bits` appends the run to the logical content (40_bit_writer.md R112). -/
@[simp] theorem writeBits_content (v n : Nat) (w : Writer) :
    (Writer.writeBits v n w).content = w.content ++ be v n := by
  induction n generalizing w with
  | zero => simp [Writer.writeBits]
  | succ n ih => rw [Writer.writeBits, ih, pushBit_content, be_succ, List.append_assoc]; rfl

@[simp] theorem writeBits_live (v n : Nat) (w : Writer) : (Writer.writeBits v n w).live = w.live := by
  induction n generalizing w with
  | zero => rfl
  | succ n ih => rw [Writer.writeBits, ih, pushBit_live]

theorem writeBits_acc_lt (v n : Nat) (w : Writer) (h : w.acc.toNat < 2 ^ w.cnt.toNat) :
    (Writer.writeBits v n w).acc.toNat < 2 ^ (Writer.writeBits v n w).cnt.toNat := by
  induction n generalizing w with
  | zero => exact h
  | succ n ih => exact ih _ (pushBit_acc_lt w _ h)

/-- `write_bits` only appends to the buffer (10_state.md R22). -/
theorem writeBits_buf (v n : Nat) (w : Writer) : w.buf <+: (Writer.writeBits v n w).buf := by
  induction n generalizing w with
  | zero => exact List.prefix_refl _
  | succ n ih => exact (pushBit_buf w _).trans (ih _)

@[simp] theorem content_length (w : Writer) : w.content.length = 8 * w.buf.length + w.cnt.toNat := by
  simp [Writer.content]

/-- The buffer grows by `(cnt + width) div 8` bytes, and the pending count is the rest (20_memory.md R58). -/
theorem writeBits_counts (v n : Nat) (w : Writer) :
    (Writer.writeBits v n w).buf.length = w.buf.length + (w.cnt.toNat + n) / 8 ∧
    (Writer.writeBits v n w).cnt.toNat = (w.cnt.toNat + n) % 8 := by
  have h := congrArg List.length (writeBits_content v n w)
  simp only [content_length, List.length_append, be_length] at h
  have := (Writer.writeBits v n w).cnt.isLt
  have := w.cnt.isLt
  omega

@[simp] theorem writeRuns_content (rs : List (Nat × Nat)) (w : Writer) :
    (Writer.writeRuns rs w).content = w.content ++ rs.flatMap fun r => be r.1 r.2 := by
  induction rs generalizing w with
  | nil => simp [Writer.writeRuns]
  | cons r rs ih => rw [Writer.writeRuns, ih, writeBits_content, List.flatMap_cons, List.append_assoc]

/-- Finalize yields the packed logical content (40_bit_writer.md R113). -/
theorem finalBytes_eq_pack (w : Writer) : w.finalBytes = pack w.content := by
  have h8 : w.cnt.toNat < 8 := w.cnt.isLt
  rw [Writer.content, pack_unpack_append, Writer.finalBytes]
  split
  · rw [pack_be_short _ _ (by omega) h8, memAppend]
  · rw [show w.cnt.toNat = 0 by omega]; simp

@[simp] theorem empty_content : Writer.empty.content = [] := rfl

theorem writer_empty_inv : Writer.empty.Inv := ⟨by decide, by simp [Writer.empty]⟩
theorem writer_reset_inv : Writer.reset.Inv := ⟨by decide, fun _ => rfl⟩

/-- A live writer keeps its invariant over a run. -/
theorem writeBits_inv (v n : Nat) {w : Writer} (h : w.Inv) (hl : w.live = true) :
    (Writer.writeBits v n w).Inv :=
  ⟨writeBits_acc_lt v n w h.1, fun hf => by simp [hl] at hf⟩

end Sys2Proof.Machine
end

