-- ==== Sys2Proof/Laws/Tiers.lean ====
section
/-! SUPPORT. What the bound, the tier chain, the encoder's and the decoder's steps do, once (43_tier_encode.md,
44_tier_decode.md, 45_config_bound.md). -/

namespace Sys2Proof.Machine

/-! ## The bound -/

theorem validConfig_iff {j t : Nat} : validConfig j t = true ↔ 1 ≤ j ∧ j ≤ 8 ∧ 1 ≤ t := by
  simp [validConfig]

theorem wlimLoop_64 (t : Nat) : wlimLoop t 64 = 64 := by
  induction t with
  | zero => rfl
  | succ t ih => simpa [wlimLoop] using ih

/-- Every value of the bound register (45_config_bound.md R195, the table). -/
theorem wlim_cases {j t : Nat} (h : validConfig j t = true) :
    (j = 1 ∧ t = 1 ∧ wlim j t = 4) ∨ (j = 1 ∧ t = 2 ∧ wlim j t = 28) ∨ (j = 2 ∧ t = 1 ∧ wlim j t = 28) ∨
      ((j = 1 → 3 ≤ t) ∧ (j = 2 → 2 ≤ t) ∧ wlim j t = 64) := by
  obtain ⟨h1, h8, ht⟩ := validConfig_iff.mp h
  obtain ⟨t, rfl⟩ : ∃ k, t = k + 1 := ⟨t - 1, by omega⟩
  obtain rfl | rfl | hj : j = 1 ∨ j = 2 ∨ 3 ≤ j := by omega
  · obtain rfl | rfl | ⟨t, rfl⟩ : t = 0 ∨ t = 1 ∨ ∃ k, t = k + 2 := by
      rcases t with _ | _ | t
      · exact .inl rfl
      · exact .inr (.inl rfl)
      · exact .inr (.inr ⟨t, rfl⟩)
    · exact .inl ⟨rfl, rfl, rfl⟩
    · exact .inr (.inl ⟨rfl, rfl, rfl⟩)
    · refine .inr (.inr (.inr ⟨by omega, by omega, ?_⟩))
      simp [wlim, wlimLoop, wlimLoop_64]
  · obtain rfl | ⟨t, rfl⟩ : t = 0 ∨ ∃ k, t = k + 1 := by
      rcases t with _ | t
      · exact .inl rfl
      · exact .inr ⟨t, rfl⟩
    · exact .inr (.inr (.inl ⟨rfl, rfl, rfl⟩))
    · refine .inr (.inr (.inr ⟨by omega, by omega, ?_⟩))
      simp [wlim, wlimLoop, wlimLoop_64]
  · refine .inr (.inr (.inr ⟨by omega, by omega, ?_⟩))
    have hp : 8 ≤ 2 ^ j := by
      calc 8 = 2 ^ 3 := rfl
        _ ≤ 2 ^ j := Nat.pow_le_pow_right (by omega) hj
    have : 6 ≤ min Config.widthMax (2 ^ j) := by simp only [Config.widthMax]; omega
    simp only [wlim, wlimLoop]
    rw [if_pos this]
    exact wlimLoop_64 t

theorem wlim_le (j t : Nat) (h : validConfig j t = true) : wlim j t ≤ 64 := by
  rcases wlim_cases h with ⟨-, -, h⟩ | ⟨-, -, h⟩ | ⟨-, -, h⟩ | ⟨-, -, h⟩ <;> omega

theorem four_le_wlim (j t : Nat) (h : validConfig j t = true) : 4 ≤ wlim j t := by
  rcases wlim_cases h with ⟨-, -, h⟩ | ⟨-, -, h⟩ | ⟨-, -, h⟩ | ⟨-, -, h⟩ <;> omega

/-! ## The tier chain -/

/-- The width of an encoded width (43_tier_encode.md R163). -/
theorem tier_width_bounds {x : Nat} (h1 : 1 ≤ x) (h64 : x ≤ 64) :
    2 ≤ (encodePayload x).width ∧ (encodePayload x).width ≤ 6 ∧ (x ≤ 60 → (encodePayload x).width ≤ 5) ∧
      (x ≤ 28 → (encodePayload x).width ≤ 4) ∧ (x ≤ 12 → (encodePayload x).width ≤ 3) ∧
      (x ≤ 4 → (encodePayload x).width ≤ 2) := by
  refine ⟨?_, encodePayload_width_le (by omega) (by simp [bucketEnd]; omega),
    fun h => encodePayload_width_le (by omega) (by simp [bucketEnd]; omega),
    fun h => encodePayload_width_le (by omega) (by simp [bucketEnd]; omega),
    fun h => encodePayload_width_le (by omega) (by simp [bucketEnd]; omega),
    fun h => encodePayload_width_le (by omega) (by simp [bucketEnd]; omega)⟩
  have h2 : wof 2 = 2 := (wof_eq_iff 2 2 (by omega)).mpr (by simp [bucketStart, bucketEnd])
  have := wof_mono (show 2 ≤ x + 1 by omega)
  rw [encodePayload_width]; omega

/-- The topmost width over the number of tiers (43_tier_encode.md R163). -/
theorem buildChain_top {t : Nat} : ∀ {current : Nat} {chain : List Tier}, 1 ≤ current → current ≤ 64 →
    (t = 0 → (buildChain t current chain).2 = current) ∧
    (1 ≤ t → 2 ≤ (buildChain t current chain).2 ∧ (buildChain t current chain).2 ≤ 6 ∧
      (current ≤ 28 → (buildChain t current chain).2 ≤ 4) ∧ (current ≤ 12 → (buildChain t current chain).2 ≤ 3) ∧
      (current ≤ 4 → (buildChain t current chain).2 ≤ 2)) ∧
    (2 ≤ t → (buildChain t current chain).2 ≤ 3 ∧ (current ≤ 28 → (buildChain t current chain).2 ≤ 2)) ∧
    (3 ≤ t → (buildChain t current chain).2 = 2) := by
  induction t with
  | zero => intro c ch _ _; simp [buildChain]
  | succ t ih =>
    intro c ch h1 h64
    have hb := tier_width_bounds h1 h64
    simp only [buildChain]
    have hi := ih (current := (encodePayload c).width) (chain := encodePayload c :: ch) (by omega) (by omega)
    obtain ⟨h0, h1', h2', h3'⟩ := hi
    set e := encodePayload c
    set top := (buildChain t e.width (e :: ch)).2
    rcases t with _ | _ | _ | t
    · simp at h0; omega
    · have := h1' (by omega); omega
    · have := h1' (by omega); have := h2' (by omega); omega
    · have := h3' (by omega); omega

/-- After the bound check, the topmost width fits the jumpstarter field (43_tier_encode.md R165). -/
theorem topmostWidth_fits {v j t : Nat} (hv : v < 2 ^ 64) (h : encodable v j t = true) :
    1 ≤ topmostWidth v t ∧ topmostWidth v t ≤ 2 ^ j := by
  obtain ⟨hc, hw⟩ : validConfig j t = true ∧ (encodePayload v).width ≤ wlim j t := by
    simpa [encodable] using h
  obtain ⟨h1, h8, ht⟩ := validConfig_iff.mp hc
  have hpw := (encodePayload_spec v).1
  have h64 := encodePayload_width_le_64 hv
  obtain ⟨-, b1, b2, b3⟩ := buildChain_top (t := t) (chain := []) hpw h64
  unfold topmostWidth
  have b1 := b1 ht
  have hj : 3 ≤ j → 8 ≤ 2 ^ j := fun hj => by
    calc 8 = 2 ^ 3 := rfl
      _ ≤ 2 ^ j := Nat.pow_le_pow_right (by omega) hj
  rcases wlim_cases hc with ⟨rfl, rfl, h⟩ | ⟨rfl, rfl, h⟩ | ⟨rfl, rfl, h⟩ | ⟨c1, c2, h⟩
  · simp; omega
  · simp; have := b2 (by omega); omega
  · simp; omega
  · refine ⟨by omega, ?_⟩
    obtain rfl | rfl | hj' : j = 1 ∨ j = 2 ∨ 3 ≤ j := by omega
    · have := b3 (c1 rfl); simp; omega
    · have := b2 (c2 rfl); simp; omega
    · have := hj hj'; omega

/-- The chain has exactly `tiers` entries (10_state.md R29). -/
theorem buildChain_length (t current : Nat) (chain : List Tier) :
    (buildChain t current chain).1.length = t + chain.length := by
  induction t generalizing current chain with
  | zero => simp [buildChain]
  | succ t ih => simp only [buildChain, ih, List.length_cons]; omega

/-! ## The encoder -/

@[simp] theorem writeChain_content (chain : List Tier) (w : Writer) :
    (writeChain chain w).content = w.content ++ chain.flatMap fun e => be e.payload e.width := by
  induction chain generalizing w with
  | nil => simp [writeChain]
  | cons e chain ih => rw [writeChain, ih, writeBits_content, List.flatMap_cons, List.append_assoc]

/-- `encode` answers the packed code word of an encodable value (43_tier_encode.md R155 to R160, R165). -/
theorem encodeSteps_ok {v j t : Nat} (hv : v < 2 ^ 64) (h : encodable v j t = true) :
    encodeSteps v j t = .ok (pack (codeWord v j t)) := by
  have hf := topmostWidth_fits hv h
  obtain ⟨hc, hw⟩ : validConfig j t = true ∧ (encodePayload v).width ≤ wlim j t := by
    simpa [encodable] using h
  unfold encodeSteps
  simp only [hc, Bool.true_eq_false, if_false]
  rw [if_neg (by omega)]
  unfold topmostWidth at hf
  rw [if_neg (by omega)]
  rw [finalBytes_eq_pack, writeBits_content, writeChain_content, writeBits_content, empty_content]
  simp [codeWord, topmostWidth, chainOf]

/-- `encode` fails on every other value, with the kind of the first check that fails (60_exceptions.md R220). -/
theorem encodeSteps_error {v j t : Nat} (h : encodable v j t = false) :
    encodeSteps v j t = .error (if validConfig j t = true then .valueTooLarge else .invalidEncoding) := by
  unfold encodeSteps encodable at *
  cases hc : validConfig j t with
  | false => simp
  | true =>
    simp only [hc, Bool.true_and, decide_eq_false_iff_not, not_le] at h
    simp [h]

/-! ## The decoder -/

@[simp] theorem takeField_append (v n : Nat) (s : List Bool) (h : v < 2 ^ n) :
    takeField n (be v n ++ s) = some (v, s) := by
  have ht : (be v n ++ s).take n = be v n := by rw [List.take_append_of_le_length (by simp)]; simp
  have hd : (be v n ++ s).drop n = s := by
    rw [List.drop_append_of_le_length (by simp)]; simp
  simp [takeField, ht, hd, Nat.mod_eq_of_lt h]

/-- All that `takeField` can answer. -/
theorem takeField_some {n v : Nat} {s rest : List Bool} (h : takeField n s = some (v, rest)) :
    s = be v n ++ rest ∧ v < 2 ^ n := by
  unfold takeField at h
  split at h
  · rename_i hn
    simp only [Option.some.injEq, Prod.mk.injEq] at h
    obtain ⟨rfl, rfl⟩ := h
    have hl : (s.take n).length = n := by simp [hn]
    refine ⟨?_, ?_⟩
    · conv_lhs => rw [← List.take_append_drop n s]
      congr 1
      conv_lhs => rw [← be_bitsVal (s.take n), hl]
    · have := bitsVal_lt (s.take n); rwa [hl] at this
  · simp at h

/-- A register read and a field of the remaining bit string agree (20_memory.md R55). -/
theorem readBits_takeField {r : Reader} (h : r.Cursor) (n : Nat) :
    (takeField n r.remaining = none ∧ (r.readBits n).2 = none) ∨
    (∃ r' v, r.readBits n = (r', some v) ∧ takeField n r.remaining = some (v, r'.remaining) ∧ r'.Cursor ∧
      r'.src = r.src ∧ r'.pos = r.pos + n) := by
  by_cases hn : n ≤ r.remaining.length
  · obtain ⟨r', he, hc, -, -, hs, hp⟩ := readBits_ok h hn
    refine .inr ⟨r', _, he, ?_, hc, hs, hp⟩
    rw [takeField, if_pos hn, remaining_after hs hp]
  · obtain ⟨r', he, -⟩ := readBits_eof h (by omega : r.remaining.length < n)
    exact .inl ⟨by simp [takeField, hn], by rw [he]⟩

/-- The register-level tier loop and the bit-string one agree (44_tier_decode.md R173). -/
theorem readTiers_parse (lim k : Nat) : ∀ (width : Nat) (r : Reader), r.Cursor →
    (∃ e, readTiers lim k width r = .error e ∧ parseTiers lim k width r.remaining = .error e) ∨
    (∃ pw r', readTiers lim k width r = .ok (pw, r') ∧
      parseTiers lim k width r.remaining = .ok (pw, r'.remaining) ∧ r'.Cursor ∧ r'.src = r.src) := by
  induction k with
  | zero => intro width r h; exact .inr ⟨width, r, rfl, rfl, h, rfl⟩
  | succ k ih =>
    intro width r h
    rw [readTiers, parseTiers]
    rcases readBits_takeField h width with ⟨ht, hr⟩ | ⟨r', v, hr, ht, hc, hs, -⟩
    · rw [ht]
      generalize r.readBits width = x at hr
      obtain ⟨a, b⟩ := x
      simp only at hr
      subst hr
      exact .inl ⟨_, rfl, rfl⟩
    · rw [hr, ht]
      simp only
      cases hd : decodeNumber v width with
      | error e => exact .inl ⟨e, rfl, rfl⟩
      | ok d =>
        simp only
        split
        · exact .inl ⟨_, rfl, rfl⟩
        · split
          · exact .inl ⟨_, rfl, rfl⟩
          · rcases ih d r' hc with h1 | ⟨pw, r'', h1, h2, h3, h4⟩
            · exact .inl h1
            · exact .inr ⟨pw, r'', h1, h2, h3, h4.trans hs⟩

theorem cursor_pos_eq {r : Reader} (h : r.Cursor) : r.pos = 8 * r.src.length - r.remaining.length := by
  have := h.pos_le
  rw [remaining_length]; omega

/-- `decode` on the registers is the parse of the unpacked bit string (44_tier_decode.md R170, 20_memory.md R55). -/
theorem decodeSteps_parse (bytes : List Byte) (j t : Nat) (hc : validConfig j t = true) :
    decodeSteps bytes j t = parseCodeWord (unpack bytes) j t := by
  unfold decodeSteps parseCodeWord
  simp only [hc, Bool.true_eq_false, if_false]
  have hf := fresh_cursor bytes
  rw [← fresh_remaining bytes]
  rcases readBits_takeField hf j with ⟨ht, hr⟩ | ⟨r1, js, hr, ht, hc1, hs1, -⟩
  · rw [ht]
    generalize (Reader.fresh bytes).readBits j = x at hr
    obtain ⟨a, b⟩ := x
    simp only at hr
    subst hr
    rfl
  · rw [hr, ht]
    simp only
    split
    · rfl
    · rcases readTiers_parse (wlim j t) t (js + 1) r1 hc1 with ⟨e, h1, h2⟩ | ⟨pw, r2, h1, h2, hc2, hs2⟩
      · rw [h1, h2]
      · rw [h1, h2]
        simp only
        rcases readBits_takeField hc2 pw with ⟨ht, hr⟩ | ⟨r3, p, hr, ht, hc3, hs3, -⟩
        · rw [ht]
          generalize r2.readBits pw = x at hr
          obtain ⟨a, b⟩ := x
          simp only at hr
          subst hr
          rfl
        · rw [hr, ht]
          simp only
          cases decodeValue p pw with
          | error e => rfl
          | ok v =>
            simp only
            rw [cursor_pos_eq hc3, hs3, hs2, hs1]
            simp [Reader.fresh, Reader.remaining, Reader.pos]

/-- The chain the encoder builds parses back to the width it encodes, with every width within the bound
(45_config_bound.md R197). -/
theorem buildChain_parse (lim pw : Nat) (hlim : 4 ≤ lim) (t : Nat) : ∀ (current : Nat) (chain : List Tier),
    1 ≤ current → current ≤ lim →
    (∀ rest, parseTiers lim chain.length current ((chain.flatMap fun e => be e.payload e.width) ++ rest)
      = .ok (pw, rest)) →
    1 ≤ (buildChain t current chain).2 ∧ (buildChain t current chain).2 ≤ lim ∧
    ∀ rest, parseTiers lim (buildChain t current chain).1.length (buildChain t current chain).2
      (((buildChain t current chain).1.flatMap fun e => be e.payload e.width) ++ rest) = .ok (pw, rest) := by
  induction t with
  | zero => intro current chain h1 h2 h3; exact ⟨h1, h2, h3⟩
  | succ t ih =>
    intro current chain h1 h2 h3
    obtain ⟨he1, -, he3⟩ := encodePayload_spec current
    simp only [buildChain]
    refine ih _ _ he1 ?_ ?_
    · have hle : (encodePayload current).width ≤ max current 2 := by
        refine encodePayload_width_le (by omega) ?_
        have : max current 2 + 1 ≤ 2 ^ max current 2 := Nat.lt_two_pow_self
        have h2' : 4 ≤ 2 ^ max current 2 := by
          calc 4 = 2 ^ 2 := rfl
            _ ≤ 2 ^ max current 2 := Nat.pow_le_pow_right (by omega) (by omega)
        unfold bucketEnd
        rw [Nat.pow_succ]
        omega
      omega
    · intro rest
      rw [List.flatMap_cons, List.append_assoc, List.length_cons, parseTiers, takeField_append _ _ _ he3]
      simp only [decodeNumber_encodePayload]
      rw [if_neg (by omega), if_neg (by omega)]
      exact h3 rest

/-- The parse of a code word followed by anything is the value and the code word's length
(44_tier_decode.md R180, R182). -/
theorem parseCodeWord_codeWord {v j t : Nat} (hv : v < 2 ^ 64) (h : encodable v j t = true) (rest : List Bool) :
    parseCodeWord (codeWord v j t ++ rest) j t = .ok (v, (codeWord v j t).length) := by
  obtain ⟨hc, hw⟩ : validConfig j t = true ∧ (encodePayload v).width ≤ wlim j t := by
    simpa [encodable] using h
  have hf := topmostWidth_fits hv h
  obtain ⟨hp1, hp2, hp3⟩ := encodePayload_spec v
  obtain ⟨-, ht2, ht3⟩ := buildChain_parse (wlim j t) (encodePayload v).width (four_le_wlim j t hc) t
    (encodePayload v).width [] hp1 hw (fun rest => by simp [parseTiers])
  rw [buildChain_length, List.length_nil, Nat.add_zero] at ht3
  unfold parseCodeWord
  rw [codeWord, List.append_assoc, List.append_assoc, takeField_append _ _ _ (by omega)]
  simp only
  have ht : topmostWidth v t - 1 + 1 = (buildChain t (encodePayload v).width []).2 := by
    unfold topmostWidth at hf ⊢; omega
  rw [ht, if_neg (by omega)]
  unfold chainOf
  rw [ht3]
  simp only [takeField_append _ _ _ hp3]
  rw [decodeValue_ok_iff.mpr ⟨hp2, hv⟩]
  simp
  omega

/-- The chain built with one tier more ends in the encoding of the topmost width. -/
theorem buildChain_succ (t current : Nat) (chain : List Tier) :
    buildChain (t + 1) current chain =
      (encodePayload (buildChain t current chain).2 :: (buildChain t current chain).1,
        (encodePayload (buildChain t current chain).2).width) := by
  induction t generalizing current chain with
  | zero => rfl
  | succ t ih => rw [buildChain, ih]; rfl

/-- What a successful parse of the tier fields says: they are the chain the encoder builds for the payload width
(44_tier_decode.md R184). -/
theorem parseTiers_ok {lim k : Nat} : ∀ {width : Nat} {s rest : List Bool} {pw : Nat}, 1 ≤ width → width ≤ lim →
    parseTiers lim k width s = .ok (pw, rest) →
    (buildChain k pw []).2 = width ∧ 1 ≤ pw ∧ pw ≤ lim ∧
      s = ((buildChain k pw []).1.flatMap fun e => be e.payload e.width) ++ rest := by
  induction k with
  | zero =>
    intro width s rest pw h1 h2 h
    simp only [parseTiers, Except.ok.injEq, Prod.mk.injEq] at h
    obtain ⟨rfl, rfl⟩ := h
    simp [buildChain, h1, h2]
  | succ k ih =>
    intro width s rest pw h1 h2 h
    rw [parseTiers] at h
    cases ht : takeField width s with
    | none => rw [ht] at h; simp at h
    | some x =>
      obtain ⟨field, s'⟩ := x
      obtain ⟨hs, hlt⟩ := takeField_some ht
      rw [ht] at h
      simp only at h
      cases hd : decodeNumber field width with
      | error e => rw [hd] at h; simp at h
      | ok d =>
        rw [hd] at h
        simp only at h
        split at h
        · simp at h
        · split at h
          · simp at h
          · obtain ⟨hb, hp1, hp2, hs'⟩ := ih (by omega) (by omega) h
            have he := encodePayload_of_decodeNumber h1 hlt hd
            rw [buildChain_succ, hb, he]
            exact ⟨rfl, hp1, hp2, by rw [List.flatMap_cons, List.append_assoc, ← hs', hs]⟩

/-- What a successful parse says: the bit string begins with the value's code word, which is encodable
(30_encoding.md R93, 44_tier_decode.md R184). -/
theorem parseCodeWord_ok {s : List Bool} {j t v n : Nat} (hc : validConfig j t = true)
    (h : parseCodeWord s j t = .ok (v, n)) :
    v < 2 ^ 64 ∧ encodable v j t = true ∧ n = (codeWord v j t).length ∧ ∃ rest, s = codeWord v j t ++ rest := by
  unfold parseCodeWord at h
  cases ht : takeField j s with
  | none => rw [ht] at h; simp at h
  | some x =>
    obtain ⟨js, s1⟩ := x
    obtain ⟨hs, -⟩ := takeField_some ht
    rw [ht] at h
    simp only at h
    split at h
    · simp at h
    · cases hp : parseTiers (wlim j t) t (js + 1) s1 with
      | error e => rw [hp] at h; simp at h
      | ok x =>
        obtain ⟨pw, s2⟩ := x
        rw [hp] at h
        simp only at h
        obtain ⟨hb, hp1, hp2, hs1⟩ := parseTiers_ok (by omega) (by omega) hp
        cases hf : takeField pw s2 with
        | none => rw [hf] at h; simp at h
        | some x =>
          obtain ⟨field, s3⟩ := x
          obtain ⟨hs2, hlt⟩ := takeField_some hf
          rw [hf] at h
          simp only at h
          cases hd : decodeValue field pw with
          | error e => rw [hd] at h; simp at h
          | ok u =>
            rw [hd] at h
            simp only [Except.ok.injEq, Prod.mk.injEq] at h
            obtain ⟨rfl, rfl⟩ := h
            obtain ⟨hm, hu⟩ := decodeValue_ok_iff.mp hd
            have he : encodePayload u = ⟨pw, field⟩ :=
              encodePayload_of_decodeNumber hp1 hlt (decodeNumber_ok_iff.mpr hm)
            have hword : s = codeWord u j t ++ s3 := by
              rw [codeWord, topmostWidth, chainOf, he, hb, hs, hs1, hs2]
              simp
            refine ⟨hu, by simp [encodable, hc, he, hp2], ?_, s3, hword⟩
            rw [hword]; simp

end Sys2Proof.Machine
end

