-- ==== Sys2Proof/Laws/Exec.lean ====
section
/-! SUPPORT. All that `exec` can do, once: the register it may write, or the response alone. -/

namespace Sys2Proof.Machine

@[simp] theorem runWidth_some {wid : BitVec 7} (h : wid.toNat ≤ 64) : runWidth wid = some wid.toNat := by
  unfold runWidth; rw [if_neg (by simp only [Config.widthMax]; omega)]

theorem runWidth_none {wid : BitVec 7} (h : 64 < wid.toNat) : runWidth wid = none := by
  unfold runWidth; rw [if_pos (by simp only [Config.widthMax]; omega)]

theorem bucketWidth_some {wid : BitVec 7} (h0 : 1 ≤ wid.toNat) (h : wid.toNat ≤ 64) :
    bucketWidth wid = some wid.toNat := by
  unfold bucketWidth; rw [if_neg (by simp only [Config.widthMax]; omega)]

theorem bucketWidth_none {wid : BitVec 7} (h : wid.toNat = 0 ∨ 64 < wid.toNat) : bucketWidth wid = none := by
  unfold bucketWidth; rw [if_pos (by simp only [Config.widthMax]; omega)]

/-- A pure command changes the response and nothing else (10_state.md R37, R40). -/
theorem exec_pure {i : Instr} {s s' : State} (h : i.isPure = true) (he : exec i s = .next s') :
    ∃ r, s' = s.respond r := by
  cases i <;> simp only [Instr.isPure, Bool.false_eq_true] at h <;> simp only [exec] at he
  case encpay => exact ⟨_, by simpa [execEncpay] using he.symm⟩
  case decpay =>
    unfold execDecpay at he
    split at he
    · exact ⟨_, by simpa using he.symm⟩
    · obtain ⟨r, h, -⟩ := conclude_cases he; exact ⟨r, h⟩
  case cfgchk => unfold execCfgchk at he; split at he <;> exact ⟨_, by simpa using he.symm⟩
  case maxw => unfold execMaxw at he; split at he <;> exact ⟨_, by simpa using he.symm⟩
  all_goals obtain ⟨r, h, -⟩ := conclude_cases he; exact ⟨r, h⟩

/-- The six shapes of a next state: `BWNEW`, a response alone (a pure command, `BRPOS`, or a refusal), `WRBITS`, `BWFIN`,
`BRNEW`, `RDBITS`. -/
theorem exec_cases {i : Instr} {s s' : State} (he : exec i s = .next s') :
    (i = .bwnew ∧ s' = (s.setWriter Writer.empty).respond (.ok Results.none)) ∨
    (∃ r, s' = s.respond r ∧ (i.isPure = true ∨ i = .brpos ∨ r = .fail .cmdRefused)) ∨
    (∃ val wid, i = .wrbits val wid ∧ s.bw.live = true ∧ wid.toNat ≤ 64 ∧
      s' = (s.setWriter (Writer.writeBits val.toNat wid.toNat s.bw)).respond (.ok Results.none)) ∨
    (i = .bwfin ∧ s.bw.live = true ∧
      s' = (s.setWriter Writer.consumed).respond (.ok (Results.bytes s.bw.finalBytes))) ∨
    (∃ bytes, i = .brnew bytes ∧ s' = (s.setReader (Reader.fresh bytes)).respond (.ok Results.none)) ∨
    (∃ wid, i = .rdbits wid ∧ s.br.live = true ∧ wid.toNat ≤ 64 ∧
      ((∃ r v, s.br.readBits wid.toNat = (r, some v) ∧ s' = (s.setReader r).respond (.ok (Results.value v))) ∨
        (∃ r, s.br.readBits wid.toNat = (r, none) ∧ s' = (s.setReader r).respond (.fail .unexpectedEof)))) := by
  by_cases hp : i.isPure = true
  · obtain ⟨r, h⟩ := exec_pure hp he
    exact .inr (.inl ⟨r, h, .inl hp⟩)
  cases i <;> simp only [Instr.isPure, not_true_eq_false] at hp <;> simp only [exec] at he
  case bwnew => exact .inl ⟨rfl, by simpa [execBwnew] using he.symm⟩
  case wrbits val wid =>
    unfold execWrbits at he
    split at he
    · exact .inr (.inl ⟨_, by simpa using he.symm, .inr (.inr rfl)⟩)
    · rename_i hl
      by_cases hw : wid.toNat ≤ 64
      · simp only [runWidth_some hw] at he
        exact .inr (.inr (.inl ⟨val, wid, rfl, by simpa using hl, hw, by simpa [valOperand] using he.symm⟩))
      · simp only [runWidth_none (by omega : 64 < wid.toNat)] at he
        exact .inr (.inl ⟨_, by simpa using he.symm, .inr (.inr rfl)⟩)
  case bwfin =>
    unfold execBwfin at he
    split at he
    · exact .inr (.inl ⟨_, by simpa using he.symm, .inr (.inr rfl)⟩)
    · rename_i hl
      exact .inr (.inr (.inr (.inl ⟨rfl, by simpa using hl, by simpa using he.symm⟩)))
  case brnew bytes =>
    exact .inr (.inr (.inr (.inr (.inl ⟨bytes, rfl, by simpa [execBrnew] using he.symm⟩))))
  case rdbits wid =>
    unfold execRdbits at he
    split at he
    · exact .inr (.inl ⟨_, by simpa using he.symm, .inr (.inr rfl)⟩)
    · rename_i hl
      by_cases hw : wid.toNat ≤ 64
      · simp only [runWidth_some hw] at he
        refine .inr (.inr (.inr (.inr (.inr ⟨wid, rfl, by simpa using hl, hw, ?_⟩))))
        rcases hx : s.br.readBits wid.toNat with ⟨r, _ | v⟩
        · rw [hx] at he; exact .inr ⟨r, rfl, by simpa using he.symm⟩
        · rw [hx] at he; exact .inl ⟨r, v, rfl, by simpa using he.symm⟩
      · simp only [runWidth_none (by omega : 64 < wid.toNat)] at he
        exact .inr (.inl ⟨_, by simpa using he.symm, .inr (.inr rfl)⟩)
  case brpos => unfold execBrpos at he; split at he <;> exact .inr (.inl ⟨_, by simpa using he.symm, .inr (.inl rfl)⟩)

end Sys2Proof.Machine
end

