-- ==== Sys2Proof/Laws/PerInstr.lean ====
section
/-! SUPPORT. The per-instruction family `PortFit`: a command is well-formed exactly when its encoding fits the ports. -/

namespace Sys2Proof.Laws.PortFit

open Sys2Proof

/-- The encoding of the command fits ports with given limits exactly when the command is well-formed for them. -/
def Statement (i : Instr) : Prop := ∀ lim : PortLimits, i.wellFormed lim = (encode i).fits lim

/-- An empty input and a zero tier count fit every port. -/
theorem bare_fits (lim : PortLimits) (cmd : BitVec 8) : (Request.bare cmd).fits lim = true := by
  simp [Request.fits, Request.bare, PortLimits.tiersFit, PortLimits.inputFits]

theorem tiers_zero (lim : PortLimits) : lim.tiersFit 0 = true := by simp [PortLimits.tiersFit]
theorem input_nil (lim : PortLimits) : lim.inputFits [] = true := by simp [PortLimits.inputFits]

theorem bwnew : Statement .bwnew := fun lim => (bare_fits lim _).symm
theorem wrbits (val : Word) (wid : BitVec 7) : Statement (.wrbits val wid) := fun lim => (bare_fits lim 0).symm
theorem bwfin : Statement .bwfin := fun lim => (bare_fits lim _).symm
theorem brnew (bytes : List Byte) : Statement (.brnew bytes) := fun lim => by
  simp [Instr.wellFormed, encode, Request.fits, Request.bare, tiers_zero]
theorem rdbits (wid : BitVec 7) : Statement (.rdbits wid) := fun lim => (bare_fits lim 0).symm
theorem brpos : Statement .brpos := fun lim => (bare_fits lim _).symm
theorem encpay (val : Word) : Statement (.encpay val) := fun lim => (bare_fits lim 0).symm
theorem decpay (payload : Word) (wid : BitVec 7) : Statement (.decpay payload wid) := fun lim => (bare_fits lim 0).symm
theorem cfgchk (j : BitVec 4) (t : Nat) : Statement (.cfgchk j t) := fun lim => by
  simp [Instr.wellFormed, encode, Request.fits, Request.bare, input_nil]
theorem maxw (j : BitVec 4) (t : Nat) : Statement (.maxw j t) := fun lim => by
  simp [Instr.wellFormed, encode, Request.fits, Request.bare, input_nil]
theorem encode (val : Word) (j : BitVec 4) (t : Nat) : Statement (.encode val j t) := fun lim => by
  simp [Instr.wellFormed, Sys2Proof.encode, Request.fits, Request.bare, input_nil]
theorem decode (bytes : List Byte) (j : BitVec 4) (t : Nat) : Statement (.decode bytes j t) := fun lim => by
  simp [Instr.wellFormed, Sys2Proof.encode, Request.fits, Request.bare, Bool.and_comm]
theorem bitlen (val : Word) (j : BitVec 4) (t : Nat) : Statement (.bitlen val j t) := fun lim => by
  simp [Instr.wellFormed, Sys2Proof.encode, Request.fits, Request.bare, input_nil]

end Sys2Proof.Laws.PortFit
end

