-- ==== Sys2Proof/Tests/Slice0.lean ====
section
/-! SUPPORT. The author's own tests: ill-formed terms refused, command words written out bit by bit, the vectors of
95_test_vectors.md one step at a time, and one witness for every statement with hypotheses. -/

namespace Sys2Proof.Machine.Tests

open Sys2Proof Sys2Proof.Machine

set_option Elab.async false -- the kernel evaluates these one after another: one thread, less memory

/-! ## Helpers -/

/-- The next state of an outcome, if there is one. -/
def nextOf : Host.Outcome State Fault Refusal → Option State
  | .next s => some s
  | .fault _ => none
  | .refused _ => none

/-- The response to a command. -/
def responseOf (i : Instr) (s : State) : Option Response := (nextOf (exec i s)).bind (·.response)

theorem of_nextOf {o : Host.Outcome State Fault Refusal} {s : State} (h : nextOf o = some s) : o = .next s := by
  cases o with
  | next t => rw [Option.some.inj h]
  | fault f => cases h
  | refused r => cases h

theorem of_responseOf {i : Instr} {s : State} {r : Response} (h : responseOf i s = some r) :
    ∃ s', exec i s = .next s' ∧ s'.response = some r := by
  unfold responseOf at h
  cases he : exec i s with
  | next t => rw [he] at h; exact ⟨t, rfl, h⟩
  | fault f => rw [he] at h; cases h
  | refused r => rw [he] at h; cases h

/-- The user writer after a command. -/
def writerOf (i : Instr) (s : State) : Option Writer := (nextOf (exec i s)).map (·.bw)

/-- The user reader after a command. -/
def readerOf (i : Instr) (s : State) : Option Reader := (nextOf (exec i s)).map (·.br)

/-- The reset state with a user writer. -/
def withWriter (w : Writer) : State := { State.reset with bw := w }

/-- The reset state with a user reader. -/
def withReader (r : Reader) : State := { State.reset with br := r }

/-- A live writer after `WRBITS 2, 2` and `WRBITS 0, 3` (program P1, step 5). -/
def partialWriter : Writer := ⟨true, [], 0b10000, 5⟩

/-- A live reader of `83 40` after reads of 2 and of 3 bits (VR1). -/
def midReader : Reader := ⟨true, [0x83, 0x40], 1, 0x83, 3⟩

/-- A live reader at the end of its one byte (VR5). -/
def endReader : Reader := ⟨true, [0x83], 1, 0x83, 0⟩

/-- The reset state with events to come. -/
def withScript (h : List HostEvent) : State := { State.reset with script := h }

/-! ## Well-formedness: one ill-formed term for each check -/

theorem test_wellFormed_cfgchk_tiers : (Instr.cfgchk 1 4).wellFormed ⟨2, 4⟩ = false := by decide
theorem test_wellFormed_maxw_tiers : (Instr.maxw 1 4).wellFormed ⟨2, 4⟩ = false := by decide
theorem test_wellFormed_encode_tiers : (Instr.encode 0 1 4).wellFormed ⟨2, 4⟩ = false := by decide
theorem test_wellFormed_decode_tiers : (Instr.decode [] 1 4).wellFormed ⟨2, 4⟩ = false := by decide
theorem test_wellFormed_bitlen_tiers : (Instr.bitlen 0 1 4).wellFormed ⟨2, 4⟩ = false := by decide
theorem test_wellFormed_brnew_input : (Instr.brnew [1, 2, 3]).wellFormed ⟨2, 2⟩ = false := by decide
theorem test_wellFormed_decode_input : (Instr.decode [1, 2, 3] 1 1).wellFormed ⟨2, 2⟩ = false := by decide
theorem test_wellFormed_accepts_limits :
    (Instr.decode [1, 2] 0 3).wellFormed ⟨2, 2⟩ = true ∧ (Instr.wrbits 0 127).wellFormed ⟨2, 0⟩ = true := by decide
theorem test_limits_legal : (PortLimits.legal ⟨2, 0⟩) = true ∧ (PortLimits.legal ⟨1, 0⟩) = false := by decide

/-! ## Decoding: `CMD[7:4] = 0000`, then the opcode (30_encoding.md R87, R88) -/

theorem test_decode_bwnew : decodeTableWord 8 0b00000001 = some .bwnew := by decide
theorem test_decode_wrbits :
    decodeRequest ⟨0b00000010, 5, 3, 9, 7, [1]⟩ = .ok (.wrbits 5 3) := by decide
theorem test_decode_bwfin : decodeTableWord 8 0b00000011 = some .bwfin := by decide
theorem test_decode_brnew :
    decodeRequest ⟨0b00000100, 5, 3, 9, 7, [0x83, 0x40]⟩ = .ok (.brnew [0x83, 0x40]) := by decide
theorem test_decode_rdbits : decodeRequest ⟨0b00000101, 5, 3, 9, 7, [1]⟩ = .ok (.rdbits 3) := by decide
theorem test_decode_brpos : decodeTableWord 8 0b00000110 = some .brpos := by decide
theorem test_decode_encpay : decodeRequest ⟨0b00000111, 5, 3, 9, 7, [1]⟩ = .ok (.encpay 5) := by decide
theorem test_decode_decpay : decodeRequest ⟨0b00001000, 5, 3, 9, 7, [1]⟩ = .ok (.decpay 5 3) := by decide
theorem test_decode_cfgchk : decodeRequest ⟨0b00001001, 5, 3, 9, 7, [1]⟩ = .ok (.cfgchk 9 7) := by decide
theorem test_decode_maxw : decodeRequest ⟨0b00001010, 5, 3, 9, 7, [1]⟩ = .ok (.maxw 9 7) := by decide
theorem test_decode_encode : decodeRequest ⟨0b00001011, 5, 3, 9, 7, [1]⟩ = .ok (.encode 5 9 7) := by decide
theorem test_decode_decode : decodeRequest ⟨0b00001100, 5, 3, 9, 7, [1]⟩ = .ok (.decode [1] 9 7) := by decide
theorem test_decode_bitlen : decodeRequest ⟨0b00001101, 5, 3, 9, 7, [1]⟩ = .ok (.bitlen 5 9 7) := by decide

/-- 30_encoding.md R90: a word that is not in the table is refused by name, and no bit of `CMD[7:4]` is dropped. -/
theorem test_decode_reserved :
    decodeRequest (.bare 0x00) = .error (.opcode 0x00) ∧ decodeRequest (.bare 0x0E) = .error (.opcode 0x0E) ∧
    decodeRequest (.bare 0x0F) = .error (.opcode 0x0F) ∧ decodeRequest (.bare 0x11) = .error (.highBits 0x11) ∧
    decodeRequest (.bare 0x8B) = .error (.highBits 0x8B) ∧ decodeTableWord 8 0xFF = none := by decide

/-- 95_test_vectors.md P1, step 8: `ENCODE 42, j=2, t=1` on the ports. -/
theorem test_encoder_ports : encode (.encode 42 2 1) = ⟨0x0B, 42, 0, 2, 1, []⟩ := by decide

/-! ## The writer (95_test_vectors.md 2.1, P1) -/

/-- `BWNEW` discards a live writer (R111). -/
theorem test_bwnew_discards : writerOf .bwnew (withWriter partialWriter) = some ⟨true, [], 0, 0⟩ := by decide +kernel

/-- P1, step 6: the third bit of the run completes the byte `83`. -/
theorem test_wrbits_completes_byte :
    writerOf (.wrbits 13 5) (withWriter partialWriter) = some ⟨true, [0x83], 0b01, 2⟩ := by decide +kernel

/-- VW5: a run of 64 bits off a byte boundary. -/
theorem test_wrbits_widest : writerOf (.wrbits 0x0123456789ABCDEF 64) (withWriter ⟨true, [], 1, 1⟩) =
    some ⟨true, [0x80, 0x91, 0xA2, 0xB3, 0xC4, 0xD5, 0xE6, 0xF7], 1, 1⟩ := by decide +kernel

/-- P1, step 7: the two pending bits `01` are padded to `40`. -/
theorem test_bwfin_pads : responseOf .bwfin (withWriter ⟨true, [0x83], 0b01, 2⟩) =
    some (.ok (Results.bytes [0x83, 0x40])) := by decide +kernel

/-- VW7 and its end: an empty writer gives the empty sequence; one that is not live is refused. -/
theorem test_bwfin_empty : responseOf .bwfin (withWriter ⟨true, [], 0, 0⟩) = some (.ok (Results.bytes [])) ∧
    responseOf .bwfin State.reset = some (.fail .cmdRefused) := by decide +kernel

/-! ## The reader (95_test_vectors.md 2.2) -/

/-- VR9: `BRNEW` on a live reader replaces it. -/
theorem test_brnew_replaces : readerOf (.brnew [0x48]) (withReader midReader) = some ⟨true, [0x48], 0, 0, 0⟩ := by
  decide +kernel

/-- VR1, the read of 5 bits over the byte boundary. -/
theorem test_rdbits_crosses_byte : responseOf (.rdbits 5) (withReader midReader) = some (.ok (Results.value 13)) ∧
    readerOf (.rdbits 5) (withReader midReader) = some ⟨true, [0x83, 0x40], 2, 0x40, 6⟩ := by decide +kernel

/-- VR5: a failed read consumes what remained. -/
theorem test_rdbits_eof : responseOf (.rdbits 5) (withReader ⟨true, [0x83], 1, 0x83, 3⟩) = some (.fail .unexpectedEof) ∧
    readerOf (.rdbits 5) (withReader ⟨true, [0x83], 1, 0x83, 3⟩) = some endReader := by decide +kernel

/-- VR1: the position after 10 bits. -/
theorem test_brpos : responseOf .brpos (withReader ⟨true, [0x83, 0x40], 2, 0x40, 6⟩) = some (.ok (Results.bits 10)) := by
  decide +kernel

/-- VR8. -/
theorem test_brpos_refused : responseOf .brpos State.reset = some (.fail .cmdRefused) := by decide +kernel

/-! ## The codec (95_test_vectors.md 2.3) -/

/-- VE8: `m = 2^64` does not wrap. -/
theorem test_encpay_greatest : responseOf (.encpay 0xFFFFFFFFFFFFFFFF) State.reset =
    some (.ok (Results.widthPayload 64 2)) := by decide +kernel

/-- VE1. -/
theorem test_encpay_zero : responseOf (.encpay 0) State.reset = some (.ok (Results.widthPayload 1 1)) := by
  decide +kernel

/-- VD9, VD10. -/
theorem test_decpay_overflow :
    responseOf (.decpay 2 64) State.reset = some (.ok (Results.value (2 ^ 64 - 1))) ∧
    responseOf (.decpay 3 64) State.reset = some (.fail .valueTooLarge) := by decide +kernel

/-- VD1, VD13, VD14, VD15. -/
theorem test_decpay_corners :
    responseOf (.decpay 0 1) State.reset = some (.fail .invalidEncoding) ∧
    responseOf (.decpay 0 0) State.reset = some (.fail .cmdRefused) ∧
    responseOf (.decpay 0 65) State.reset = some (.fail .cmdRefused) ∧
    responseOf (.decpay 5 2) State.reset = some (.ok (Results.value 6)) := by decide +kernel

/-! ## The configuration and the bound (95_test_vectors.md 2.4) -/

/-- VG11, VG13, VG14, VG16. -/
theorem test_cfgchk :
    responseOf (.cfgchk 8 1) State.reset = some (.ok Results.none) ∧
    responseOf (.cfgchk 0 1) State.reset = some (.fail .invalidEncoding) ∧
    responseOf (.cfgchk 9 1) State.reset = some (.fail .invalidEncoding) ∧
    responseOf (.cfgchk 3 0) State.reset = some (.fail .invalidEncoding) := by decide +kernel

/-- The presets are valid configurations (45_config_bound.md R192). -/
theorem test_presets_valid :
    [presetJ1T2, presetJ2T1, presetJ3T1].all (fun c => validConfig c.j.toNat c.t) = true := by decide

/-- VG1, VG2, VG3, VG5, VG6. -/
theorem test_maxw :
    responseOf (.maxw 1 1) State.reset = some (.ok (Results.width 4)) ∧
    responseOf (.maxw 1 2) State.reset = some (.ok (Results.width 28)) ∧
    responseOf (.maxw 1 3) State.reset = some (.ok (Results.width 64)) ∧
    responseOf (.maxw 2 1) State.reset = some (.ok (Results.width 28)) ∧
    responseOf (.maxw 2 2) State.reset = some (.ok (Results.width 64)) := by decide +kernel

/-- VG14. -/
theorem test_maxw_invalid : responseOf (.maxw 9 1) State.reset = some (.fail .invalidEncoding) := by decide +kernel

/-! ## The encoder, the decoder, the length query (95_test_vectors.md 1.1, 2.6, 2.7) -/

/-- S1, and `2^64 - 1` under (4, 4), whose four tiers and topmost width all differ. -/
theorem test_encode :
    responseOf (.encode 42 3 2) State.reset = some (.ok (Results.bytes [0x30, 0x68])) ∧
    responseOf (.encode 0xFFFFFFFFFFFFFFFF 4 4) State.reset =
      some (.ok (Results.bytes [0x16, 0x21, 0x80, 0, 0, 0, 0, 0, 0, 0x01, 0])) := by decide +kernel

/-- S5, and the greatest value of (1, 1). -/
theorem test_encode_bound :
    responseOf (.encode 60 1 1) State.reset = some (.fail .valueTooLarge) ∧
    responseOf (.encode 29 1 1) State.reset = some (.fail .valueTooLarge) ∧
    responseOf (.encode 28 1 1) State.reset = some (.ok (Results.bytes [0xFE])) ∧
    responseOf (.encode 0 9 1) State.reset = some (.fail .invalidEncoding) := by decide +kernel

/-- S1, VK3 (pad bits are not checked), VK7 (another configuration). -/
theorem test_decode_values :
    responseOf (.decode [0x30, 0x68] 3 2) State.reset = some (.ok (Results.valueBits 42 13)) ∧
    responseOf (.decode [0x83, 0x7F] 2 1) State.reset = some (.ok (Results.valueBits 42 10)) ∧
    responseOf (.decode [0xA4] 1 1) State.reset = some (.ok (Results.valueBits 1 5)) := by decide +kernel

/-- VF3, VF6, VF8, VF10, VF17, VF18, VF21, VF23: one failure for each check of 60_exceptions.md R221. -/
theorem test_decode_failures :
    responseOf (.decode [] 9 1) State.reset = some (.fail .invalidEncoding) ∧
    responseOf (.decode [0x10] 3 1) State.reset = some (.fail .invalidEncoding) ∧
    responseOf (.decode [0x20] 3 1) State.reset = some (.fail .invalidEncoding) ∧
    responseOf (.decode [0x83] 2 1) State.reset = some (.fail .unexpectedEof) ∧
    responseOf (.decode [0xA2, 0x00] 3 1) State.reset = some (.fail .valueTooLarge) ∧
    responseOf (.decode [0xA1, 0x80, 0, 0, 0, 0, 0, 0, 0x01, 0x80] 3 1) State.reset = some (.fail .valueTooLarge) ∧
    responseOf (.decode [0x40] 8 1) State.reset = some (.fail .valueTooLarge) ∧
    responseOf (.decode [0x7E, 0, 0, 0, 0, 0, 0, 0, 0, 0] 7 1) State.reset = some (.fail .valueTooLarge) := by
  decide +kernel

/-- 42 and `2^64 - 1` under (4, 4) and (8, 1). -/
theorem test_bitlen :
    responseOf (.bitlen 42 4 4) State.reset = some (.ok (Results.bits 18)) ∧
    responseOf (.bitlen 0xFFFFFFFFFFFFFFFF 8 1) State.reset = some (.ok (Results.bits 78)) := by decide +kernel

/-- 60 under (1, 1), and an invalid configuration. -/
theorem test_bitlen_fails :
    responseOf (.bitlen 60 1 1) State.reset = some (.fail .valueTooLarge) ∧
    responseOf (.bitlen 0 3 0) State.reset = some (.fail .invalidEncoding) := by decide +kernel

/-! ## The step -/

/-- A word placed for the next step is run by it, and taken off the host's events. -/
theorem test_step_runs_word : nextOf (step (State.reset.withFetchWord 8 0b00000001)) =
    some { State.reset with bw := ⟨true, [], 0, 0⟩, response := some (.ok Results.none) } := by decide +kernel

/-- A reserved word is answered, not a stop; the reset event clears a live writer and the response. -/
theorem test_step_reserved_and_reset :
    (nextOf (step (State.reset.withFetchWord 8 0x10))).bind (·.response) = some (.fail .cmdRefused) ∧
    nextOf (step { withWriter partialWriter with response := some (.fail .cmdRefused), script := [.reset] }) =
      some State.reset := by decide +kernel

/-! ## Witnesses: for each statement with hypotheses, states and operands that meet them, clause by clause at the
boundary values -/

theorem partialWriter_inv : partialWriter.Inv := by
  refine ⟨by decide +kernel, fun h => ?_⟩
  cases h

theorem midReader_inv : midReader.Inv := by
  refine ⟨by decide +kernel, by decide +kernel, by decide +kernel, by decide +kernel, fun h => ?_⟩
  cases h

theorem endReader_inv : endReader.Inv := by
  refine ⟨by decide +kernel, by decide +kernel, by decide +kernel, by decide +kernel, fun h => ?_⟩
  cases h

theorem freshReader_inv (bytes : List Byte) : (Reader.fresh bytes).Inv := by
  refine ⟨Nat.zero_le _, by simp [Reader.fresh], fun _ => ⟨rfl, rfl⟩, fun h => ?_, fun h => ?_⟩
  · simp [Reader.fresh] at h
  · cases h

/-- A state in the middle of a run: a partial byte, a partly read input, an earlier response, an event to come. -/
def midRun : State :=
  ⟨partialWriter, midReader, some (.ok (Results.widthPayload 64 2)), [.present ⟨0x02, 13, 5, 0, 0, []⟩, .reset]⟩

theorem midRun_inv : midRun.Inv := by
  refine ⟨partialWriter_inv, midReader_inv, ?_⟩
  intro r hr
  cases hr
  intro w hw
  cases hw
  decide +kernel

theorem witness_EveryStepKeepsInvariant : midRun.Inv ∧ step midRun = .next
    { midRun with bw := ⟨true, [0x83], 0b01, 2⟩, response := some (.ok Results.none), script := [.reset] } :=
  ⟨midRun_inv, of_nextOf (by decide +kernel)⟩

theorem witness_ResetEventRestoresReset :
    (withScript [.reset, .present (.bare 0x01)]).script = .reset :: [.present (.bare 0x01)] ∧
    ∀ i ∈ [Instr.wrbits 1 1, .bwfin, .rdbits 1, .brpos], i ∈ [Instr.wrbits 1 1, .bwfin, .rdbits 1, .brpos] := by
  decide +kernel

theorem witness_BlockWaitsWithoutCommand : (withWriter partialWriter).script = [] := by decide +kernel

theorem witness_StepRunsDecodedCommand :
    midRun.script = .present ⟨0x02, 13, 5, 0, 0, []⟩ :: [.reset] ∧
    decodeRequest ⟨0x02, 13, 5, 0, 0, []⟩ = .ok (.wrbits 13 5) := by decide +kernel

theorem witness_ReservedWordIsRefused :
    ∀ c ∈ [(0x00 : BitVec 8), 0x0E, 0x0F, 0x10, 0xFF],
      (withScript [.present (.bare c)]).script = .present (.bare c) :: [] ∧
      ((Request.bare c).cmd = 0x00 ∨ (Request.bare c).cmd = 0x0E ∨ (Request.bare c).cmd = 0x0F ∨
        0x10 ≤ (Request.bare c).cmd.toNat) := by decide +kernel

theorem witness_DecodeAndEncodeAgree :
    (Instr.decode [0x83, 0x40] 2 3).wellFormed ⟨2, 2⟩ = true ∧
    (⟨0x0C, 7, 127, 2, 3, [0x83, 0x40]⟩ : Request).fits ⟨2, 2⟩ = true ∧
    decodeRequest ⟨0x0C, 7, 127, 2, 3, [0x83, 0x40]⟩ = .ok (.decode [0x83, 0x40] 2 3) := by decide +kernel

/-- The command words, for the first clause of the statement of each command: BwnewCreatesEmptyWriter, WrbitsAppendsRun,
BwfinYieldsPackedContent, BrnewLoadsSequence, RdbitsDeliversRun, BrposReportsPosition, EncpaySelectsBucket,
DecpayRecoversValue, CfgchkAcceptsExactlyValid, MaxwReportsClampedBound, EncodeAnswersCodeWord, DecodeParsesBitStream,
BitlenReportsCodeWordLength. -/
theorem witness_command_words :
    ∀ c ∈ [(0x01 : BitVec 8), 0x02, 0x03, 0x04, 0x05, 0x06, 0x07, 0x08, 0x09, 0x0A, 0x0B, 0x0C, 0x0D],
      (Request.bare c).cmd = c := by decide +kernel

theorem witness_WrbitsAppendsRun :
    (State.reset.bw.live = false ∧ 64 < (65 : BitVec 7).toNat) ∧
    ((withWriter partialWriter).bw.live = true ∧ (0 : BitVec 7).toNat ≤ 64 ∧ (64 : BitVec 7).toNat ≤ 64) ∧
    (withWriter partialWriter).bw.Inv := ⟨by decide +kernel, by decide +kernel, partialWriter_inv⟩

theorem witness_WrbitsIgnoresHighBits :
    (withWriter partialWriter).bw.live = true ∧ (4 : BitVec 7).toNat ≤ 64 ∧
    (0xFF : Word).toNat % 2 ^ (4 : BitVec 7).toNat = (0x0F : Word).toNat % 2 ^ (4 : BitVec 7).toNat ∧
    (0xFF : Word).toNat % 2 ^ (0 : BitVec 7).toNat = (0x0E : Word).toNat % 2 ^ (0 : BitVec 7).toNat := by decide +kernel

theorem witness_BwfinYieldsPackedContent :
    State.reset.bw.live = false ∧ (withWriter partialWriter).bw.live = true := by decide +kernel

theorem witness_ConsumedWriterIsUnusable :
    ((withWriter partialWriter).bw.live = true ∧ ∃ s', exec .bwfin (withWriter partialWriter) = .next s' ∧
      s'.response = some (.ok (Results.bytes [0x80]))) ∧
    (State.reset.bw.live = false ∧ Instr.wrbits 1 1 ≠ .bwnew ∧ ∃ s', exec (.wrbits 1 1) State.reset = .next s' ∧
      s'.response = some (.fail .cmdRefused)) :=
  ⟨⟨by decide +kernel, of_responseOf (by decide +kernel)⟩, by decide +kernel, by decide +kernel, of_responseOf (by decide +kernel)⟩

/-- `101 00011` in one run of 8 bits, and as runs of 3, 0 and 5 bits; runs of 64 bits are admitted. -/
theorem witness_WriterForgetsRunBoundaries :
    (∀ r ∈ [((0xA3 : Word), (8 : BitVec 7))], r.2.toNat ≤ 64) ∧
    (∀ r ∈ [((5 : Word), (3 : BitVec 7)), (9, 0), (3, 5)], r.2.toNat ≤ 64) ∧
    ([((0xA3 : Word), (8 : BitVec 7))].flatMap fun r => be r.1.toNat r.2.toNat) =
      ([((5 : Word), (3 : BitVec 7)), (9, 0), (3, 5)].flatMap fun r => be r.1.toNat r.2.toNat) ∧
    (∀ r ∈ [((1 : Word), (64 : BitVec 7))], r.2.toNat ≤ 64) :=
  ⟨by simp, by simp, by decide +kernel, by simp⟩

theorem witness_RdbitsDeliversRun :
    (State.reset.br.live = false ∧ 64 < (65 : BitVec 7).toNat) ∧
    ((withReader midReader).br.Inv ∧ (withReader midReader).br.live = true ∧
      (0 : BitVec 7).toNat ≤ 64 ∧ (11 : BitVec 7).toNat ≤ 64 ∧
      (withReader midReader).br.pos + (0 : BitVec 7).toNat ≤ 8 * (withReader midReader).br.src.length ∧
      (withReader midReader).br.pos + (11 : BitVec 7).toNat = 8 * (withReader midReader).br.src.length) ∧
    8 * (withReader midReader).br.src.length - (withReader midReader).br.pos < (12 : BitVec 7).toNat :=
  ⟨by decide +kernel, ⟨midReader_inv, by decide +kernel, by decide +kernel, by decide +kernel, by decide +kernel, by decide +kernel⟩, by decide +kernel⟩

theorem witness_RdbitsPastEndConsumesRest :
    (withReader midReader).br.Inv ∧ (withReader midReader).br.live = true ∧
    (12 : BitVec 7).toNat ≤ 64 ∧ (64 : BitVec 7).toNat ≤ 64 ∧
    8 * (withReader midReader).br.src.length - (withReader midReader).br.pos < (12 : BitVec 7).toNat :=
  ⟨midReader_inv, by decide +kernel, by decide +kernel, by decide +kernel, by decide +kernel⟩

theorem witness_ExhaustedReaderStaysConsistent :
    ((withReader midReader).br.Inv ∧ ∃ s', exec (.rdbits 12) (withReader midReader) = .next s' ∧
      s'.response = some (.fail .unexpectedEof)) ∧
    ((withReader endReader).br.Inv ∧ (withReader endReader).br.live = true ∧
      (withReader endReader).br.pos = 8 * (withReader endReader).br.src.length ∧
      1 ≤ (1 : BitVec 7).toNat ∧ (64 : BitVec 7).toNat ≤ 64) :=
  ⟨⟨midReader_inv, of_responseOf (by decide +kernel)⟩, endReader_inv, by decide +kernel, by decide +kernel, by decide +kernel, by decide +kernel⟩

theorem witness_BrposReportsPosition :
    State.reset.br.live = false ∧ (withReader midReader).br.live = true ∧ (withReader midReader).br.Inv ∧
    (withReader endReader).br.Inv := ⟨by decide +kernel, by decide +kernel, midReader_inv, endReader_inv⟩

/-- The configurations at the ends of the valid range, and one past each end, for EmptyInputFails,
CfgchkAcceptsExactlyValid, MaxwReportsClampedBound, EncodeAnswersCodeWord, EncodableValuesAreTabulated,
DecodeParsesBitStream, JumpstarterDefectsAreReported, BitlenFailsAsEncode. -/
theorem witness_configurations :
    (1 ≤ (1 : BitVec 4).toNat ∧ (1 : BitVec 4).toNat ≤ 8 ∧ 1 ≤ 1) ∧
    (1 ≤ (8 : BitVec 4).toNat ∧ (8 : BitVec 4).toNat ≤ 8 ∧ 1 ≤ 2 ^ 64) ∧
    ¬(1 ≤ (0 : BitVec 4).toNat ∧ (0 : BitVec 4).toNat ≤ 8 ∧ 1 ≤ 1) ∧
    ¬(1 ≤ (9 : BitVec 4).toNat ∧ (9 : BitVec 4).toNat ≤ 8 ∧ 1 ≤ 1) ∧
    ¬(1 ≤ (8 : BitVec 4).toNat ∧ (8 : BitVec 4).toNat ≤ 8 ∧ 1 ≤ 0) := by decide +kernel

theorem witness_EmptyInputFails : 1 ≤ (1 : BitVec 7).toNat ∧ (1 : BitVec 7).toNat ≤ 64 ∧
    1 ≤ (64 : BitVec 7).toNat ∧ (64 : BitVec 7).toNat ≤ 64 := by decide +kernel

theorem witness_RefusalExactlyInListedCases :
    (Instr.wrbits 0 0).refusedIn State.reset = true ∧
    (Instr.wrbits 0 65).refusedIn (withWriter partialWriter) = true ∧
    (Instr.decpay 0 0).refusedIn State.reset = true ∧
    (withScript [.present (.bare 0x0E)]).script = .present (.bare 0x0E) :: [] ∧
    decodeRequest (.bare 0x0E) = .error (.opcode 0x0E) := by decide +kernel

theorem witness_BucketsPartitionNaturals :
    1 ≤ 1 ∧ bucketStart 1 ≤ 0 ∧ 0 ≤ bucketEnd 1 ∧ bucketStart 1 ≤ 1 ∧ 1 ≤ bucketEnd 1 ∧ 2 ^ 64 ≤ 2 ^ 64 := by decide +kernel

theorem witness_BucketBoundariesSelectWidths : 1 ≤ 1 ∧ 2 ≤ 2 ∧ bucketEnd 1 = 1 ∧ bucketStart 2 = 2 := by
  decide +kernel

theorem witness_DecpayRecoversValue :
    ((0 : BitVec 7).toNat = 0 ∧ 64 < (65 : BitVec 7).toNat) ∧
    (1 ≤ (1 : BitVec 7).toNat ∧ (1 : BitVec 7).toNat ≤ 64 ∧ 2 ^ (1 : BitVec 7).toNat - 2 + (0 : Word).toNat = 0) ∧
    (1 ≤ (64 : BitVec 7).toNat ∧ (64 : BitVec 7).toNat ≤ 64 ∧
      2 ^ 64 < 2 ^ (64 : BitVec 7).toNat - 2 + (3 : Word).toNat) ∧
    (2 ^ (64 : BitVec 7).toNat - 2 + (2 : Word).toNat = (0xFFFFFFFFFFFFFFFF : Word).toNat + 1 ∧
      2 ^ (1 : BitVec 7).toNat - 2 + (1 : Word).toNat = (0 : Word).toNat + 1) := by decide +kernel

theorem witness_CodecCommandsAreInverse :
    1 ≤ (64 : BitVec 7).toNat ∧ (64 : BitVec 7).toNat ≤ 64 ∧ (2 : Word).toNat < 2 ^ (64 : BitVec 7).toNat ∧
    (1 : Word).toNat < 2 ^ (1 : BitVec 7).toNat ∧
    responseOf (.decpay 2 64) State.reset = some (.ok ⟨some 0xFFFFFFFFFFFFFFFF, none, none, none⟩) ∧
    responseOf (.decpay 1 1) State.reset = some (.ok ⟨some 0, none, none, none⟩) ∧
    4 ≤ 5 ∧ encodePayload 42 = encodePayload 42 := by decide +kernel

theorem witness_ClampedBoundComparesAlike : 1 ≤ 8 ∧ 8 ≤ 8 ∧ 1 ≤ 1 ∧ 64 ≤ 64 := by decide +kernel

/-- Values on both sides of the bound: 28 and 29 under (1, 1); the greatest value under (3, 1). -/
theorem witness_EncodeAnswersCodeWord :
    (encodePayload (28 : Word).toNat).width ≤ wlim (1 : BitVec 4).toNat 1 ∧
    wlim (1 : BitVec 4).toNat 1 < (encodePayload (29 : Word).toNat).width ∧
    (encodePayload (0xFFFFFFFFFFFFFFFF : Word).toNat).width ≤ wlim (3 : BitVec 4).toNat 1 := by decide +kernel

theorem witness_JumpstarterOverflowNeverAnswered :
    encodable (0xFFFFFFFFFFFFFFFF : Word).toNat 1 3 = true ∧ ∃ s', exec (.encode 60 1 1) State.reset = .next s' ∧
      s'.response = some (.fail .valueTooLarge) :=
  ⟨by decide +kernel, of_responseOf (by decide +kernel)⟩

/-- The chain of `2^64 - 1` at four tiers has entries of three widths. -/
theorem witness_TierChainIsTabulated :
    1 ≤ 4 ∧ chainOf (0xFFFFFFFFFFFFFFFF : Word).toNat 4 = [⟨2, 1⟩, ⟨2, 2⟩, ⟨3, 1⟩, ⟨6, 3⟩] ∧
    (1 ≤ 3 ∧ 3 < 4) ∧ 4 ≤ 4 := by decide +kernel

/-- Encodable values at the ends of a bound, for JumpstarterOverflowNeverAnswered, CodeWordLengthIsTabulated,
CodeWordsArePrefixFree, EncodeIsCompositionOfWrites, DecodeInvertsEncode, BitlenReportsCodeWordLength. -/
theorem witness_encodable :
    encodable (0 : Word).toNat (1 : BitVec 4).toNat 1 = true ∧ encodable (28 : Word).toNat (1 : BitVec 4).toNat 1 = true ∧
    encodable (29 : Word).toNat (1 : BitVec 4).toNat 1 = false ∧
    encodable (42 : Word).toNat (2 : BitVec 4).toNat 2 = true ∧
    encodable (0xFFFFFFFFFFFFFFFF : Word).toNat (8 : BitVec 4).toNat 3 = true := by decide +kernel

theorem witness_CodeWordsArePrefixFree :
    ((∃ u, exec (.encode 42 2 1) State.reset = .next u ∧ u.response = some (.ok (Results.bytes [0x83, 0x40]))) ∧
      ∃ u', exec (.encode 42 2 1) midRun = .next u' ∧ u'.response = some (.ok (Results.bytes [0x83, 0x40]))) ∧
    encodable (42 : Word).toNat 2 1 = true ∧ codeWord (42 : Word).toNat 2 1 <+: codeWord (42 : Word).toNat 2 1 :=
  ⟨⟨of_responseOf (by decide +kernel), of_responseOf (by decide +kernel)⟩, by decide +kernel, List.prefix_rfl⟩

/-- S2: an accepted input, for AcceptedInputIsCanonical and BitsAfterCodeWordAreIgnored. -/
theorem witness_accepted_input :
    exec (.decode [0x83, 0x40] 2 1) State.reset =
      .next { State.reset with response := some (.ok ⟨some 42, none, some 10, none⟩) } ∧
    (unpack [0x83, 0x7F, 0xFF]).take 10 = (unpack [0x83, 0x40]).take 10 := by
  exact ⟨of_nextOf (by decide +kernel), by decide +kernel⟩

/-- The four defects of a jumpstarter field: no byte; 256 above the bound; width 1 with and without one more bit. -/
theorem witness_JumpstarterDefectsAreReported :
    8 * ([] : List Byte).length < (8 : BitVec 4).toNat ∧
    ((8 : BitVec 4).toNat ≤ 8 * [(0xFF : Byte)].length ∧
      wlim (8 : BitVec 4).toNat 1 < bitsVal ((unpack [0xFF]).take (8 : BitVec 4).toNat) + 1) ∧
    ((1 : BitVec 4).toNat < 8 * [(0x00 : Byte)].length ∧ bitsVal ((unpack [0x00]).take (1 : BitVec 4).toNat) = 0) ∧
    ((8 : BitVec 4).toNat = 8 * [(0x00 : Byte)].length ∧ bitsVal ((unpack [0x00]).take (8 : BitVec 4).toNat) = 0) := by
  decide +kernel

theorem witness_BitlenFailsAsEncode :
    (∃ s', exec (.bitlen 42 2 1) midRun = .next s' ∧ s'.response = some (.ok (Results.bits 10))) ∧
    responseOf (.bitlen 60 1 1) State.reset = some (.fail .valueTooLarge) ∧
    wlim (1 : BitVec 4).toNat 1 < (encodePayload (60 : Word).toNat).width :=
  ⟨of_responseOf (by decide +kernel), by decide +kernel⟩

theorem witness_FailureKindsAsTabulated : ∃ s', exec (.decode [] 3 1) State.reset = .next s' ∧
    s'.response = some (.fail .unexpectedEof) := of_responseOf (by decide +kernel)

theorem witness_FailureLeavesOnlyCursorMoved :
    ((withReader midReader).br.Inv ∧ ∃ s', exec (.rdbits 12) (withReader midReader) = .next s' ∧
      s'.response = some (.fail .unexpectedEof)) ∧ readerOf (.rdbits 12) (withReader midReader) ≠ some midReader ∧
    ∃ s', exec (.rdbits 65) (withReader midReader) = .next s' ∧ s'.response = some (.fail .cmdRefused) :=
  ⟨⟨midReader_inv, of_responseOf (by decide +kernel)⟩, by decide +kernel, of_responseOf (by decide +kernel)⟩

theorem witness_PureCommandsDependOnOperandsOnly :
    (Instr.bitlen 42 2 1).isPure = true ∧
    (∃ s', exec (.bitlen 42 2 1) State.reset = .next s' ∧ s'.response = some (.ok (Results.bits 10))) ∧
    ∃ u', exec (.bitlen 42 2 1) midRun = .next u' ∧ u'.response = some (.ok (Results.bits 10)) :=
  ⟨by decide +kernel, of_responseOf (by decide +kernel), of_responseOf (by decide +kernel)⟩

theorem witness_CommandsKeepRegistersTheyDoNotWrite :
    (∃ s', exec (.wrbits 13 5) midRun = .next s' ∧ s'.response = some (.ok Results.none)) ∧
    (∃ s', exec .brpos midRun = .next s' ∧ s'.response = some (.ok (Results.bits 5))) ∧
    (Instr.brpos ≠ .bwnew ∧ (∀ val wid, Instr.brpos ≠ .wrbits val wid) ∧ Instr.brpos ≠ .bwfin) ∧
    ((∀ bytes, Instr.brpos ≠ .brnew bytes) ∧ ∀ wid, Instr.brpos ≠ .rdbits wid) := by
  refine ⟨of_responseOf (by decide +kernel), of_responseOf (by decide +kernel), ⟨?_, ?_, ?_⟩, ?_, ?_⟩ <;> simp

end Sys2Proof.Machine.Tests
end

/-! PROOFS. Layer on `exec`: what a response may carry, what a command answers, and what it keeps of the registers
(10_state.md R26, R34, R37, R40; 70_reset_and_hazards.md R242, R263). -/

namespace Sys2Proof.Machine

/-! ## Responses whose width is in range (10_state.md R34) -/

theorem fail_inv (k : Failure) : (Response.fail k).Inv := trivial

theorem ok_inv_of_rwid_none {r : Results} (h : r.rwid = none) : (Response.ok r).Inv :=
  fun w hw => by simp [h] at hw

theorem ok_inv_of_rwid_le {r : Results} {n : Nat} (h : r.rwid = some (BitVec.ofNat 7 n)) (hn : n ≤ 64) :
    (Response.ok r).Inv := by
  intro w hw
  obtain rfl : BitVec.ofNat 7 n = w := Option.some.inj (h.symm.trans hw)
  rw [BitVec.toNat_ofNat, Config.widthMax]
  exact (Nat.mod_le _ _).trans hn

/-! ## The pure commands (10_state.md R37, 70_reset_and_hazards.md R242) -/

/-- One response for every state; no width on it if the results have none. -/
theorem conclude_uniform {α : Type} (e : Except Failure α) (f : α → Results) (hf : ∀ a, (f a).rwid = none) :
    ∃ r : Response, r.Inv ∧ ∀ s, conclude s (e.map f) = .next (s.respond r) := by
  cases e with
  | ok a => exact ⟨.ok (f a), ok_inv_of_rwid_none (hf a), fun _ => rfl⟩
  | error k => exact ⟨.fail k, fail_inv k, fun _ => rfl⟩

/-- The answer of a pure command is fixed by its operands alone, and carries a width of at most 64. -/
theorem exec_pure_uniform {i : Instr} (h : i.isPure = true) :
    ∃ r : Response, r.Inv ∧ ∀ s, exec i s = .next (s.respond r) := by
  cases i <;> simp only [Instr.isPure, Bool.false_eq_true] at h
  case encpay val =>
    exact ⟨_, ok_inv_of_rwid_le rfl (encodePayload_width_le_64 val.isLt), fun _ => rfl⟩
  case decpay payload wid =>
    simp only [exec, execDecpay]
    cases bucketWidth wid with
    | none => exact ⟨_, fail_inv .cmdRefused, fun _ => rfl⟩
    | some width => exact conclude_uniform _ _ fun _ => rfl
  case cfgchk j t =>
    simp only [exec, execCfgchk]
    split
    · exact ⟨_, ok_inv_of_rwid_none rfl, fun _ => rfl⟩
    · exact ⟨_, fail_inv .invalidEncoding, fun _ => rfl⟩
  case maxw j t =>
    simp only [exec, execMaxw]
    split
    · exact ⟨_, ok_inv_of_rwid_le rfl (wlim_le _ _ ‹_›), fun _ => rfl⟩
    · exact ⟨_, fail_inv .invalidEncoding, fun _ => rfl⟩
  case encode => exact conclude_uniform _ _ fun _ => rfl
  case decode => exact conclude_uniform _ _ fun _ => rfl
  case bitlen => exact conclude_uniform _ _ fun _ => rfl

/-! ## Every command answers (10_state.md R34, 70_reset_and_hazards.md R263) -/

theorem exec_answers (i : Instr) (s : State) : ∃ s', exec i s = .next s' := by
  by_cases hp : i.isPure = true
  · obtain ⟨r, -, he⟩ := exec_pure_uniform hp
    exact ⟨_, he s⟩
  cases i <;> simp only [Instr.isPure, not_true_eq_false] at hp
  case bwnew => exact ⟨_, rfl⟩
  case brnew => exact ⟨_, rfl⟩
  case wrbits val wid =>
    simp only [exec, execWrbits]
    split
    · exact ⟨_, rfl⟩
    · cases runWidth wid <;> exact ⟨_, rfl⟩
  case bwfin =>
    simp only [exec, execBwfin]
    split <;> exact ⟨_, rfl⟩
  case rdbits wid =>
    simp only [exec, execRdbits]
    split
    · exact ⟨_, rfl⟩
    · cases runWidth wid with
      | none => exact ⟨_, rfl⟩
      | some width =>
        dsimp only
        rcases s.br.readBits width with ⟨r, _ | v⟩ <;> exact ⟨_, rfl⟩
  case brpos =>
    simp only [exec, execBrpos]
    split <;> exact ⟨_, rfl⟩

theorem exec_brpos_response_inv {s s' : State} (he : exec .brpos s = .next s') {r : Response}
    (hr : s'.response = some r) : r.Inv := by
  simp only [exec, execBrpos, answer_eq, raise_eq] at he
  split at he <;> cases he <;> cases hr
  · exact fail_inv _
  · exact ok_inv_of_rwid_none rfl

/-- Every command answers with a response whose width, if there is one, is at most 64 (10_state.md R34). -/
theorem exec_response {i : Instr} {s s' : State} (he : exec i s = .next s') :
    ∃ r, s'.response = some r ∧ r.Inv := by
  rcases exec_cases he with ⟨-, rfl⟩ | ⟨r, rfl, hp | rfl | rfl⟩ | ⟨_, _, -, -, -, rfl⟩ | ⟨-, -, rfl⟩ | ⟨_, -, rfl⟩ |
    ⟨_, -, -, -, ⟨_, _, -, rfl⟩ | ⟨_, -, rfl⟩⟩
  · exact ⟨_, rfl, ok_inv_of_rwid_none rfl⟩
  · obtain ⟨r', hr', hu⟩ := exec_pure_uniform hp
    cases (hu s).symm.trans he
    exact ⟨_, rfl, hr'⟩
  · exact ⟨r, rfl, exec_brpos_response_inv he rfl⟩
  · exact ⟨_, rfl, fail_inv _⟩
  · exact ⟨_, rfl, ok_inv_of_rwid_none rfl⟩
  · exact ⟨_, rfl, ok_inv_of_rwid_none rfl⟩
  · exact ⟨_, rfl, ok_inv_of_rwid_none rfl⟩
  · exact ⟨_, rfl, ok_inv_of_rwid_none rfl⟩
  · exact ⟨_, rfl, fail_inv _⟩

/-! ## What a command keeps (10_state.md R40) -/

theorem exec_script {i : Instr} {s s' : State} (he : exec i s = .next s') : s'.script = s.script := by
  rcases exec_cases he with ⟨-, rfl⟩ | ⟨_, rfl, -⟩ | ⟨_, _, -, -, -, rfl⟩ | ⟨-, -, rfl⟩ | ⟨_, -, rfl⟩ |
    ⟨_, -, -, -, ⟨_, _, -, rfl⟩ | ⟨_, -, rfl⟩⟩ <;> rfl

/-- All that a command can do to the user writer. -/
theorem exec_bw_cases {i : Instr} {s s' : State} (he : exec i s = .next s') :
    s'.bw = s.bw ∨ (i = .bwnew ∧ s'.bw = Writer.empty) ∨ (i = .bwfin ∧ s'.bw = Writer.consumed) ∨
    (∃ val wid, i = .wrbits val wid ∧ s.bw.live = true ∧ s'.bw = Writer.writeBits val.toNat wid.toNat s.bw) := by
  rcases exec_cases he with ⟨hi, rfl⟩ | ⟨_, rfl, -⟩ | ⟨val, wid, hi, hl, -, rfl⟩ | ⟨hi, -, rfl⟩ | ⟨_, -, rfl⟩ |
    ⟨_, -, -, -, ⟨_, _, -, rfl⟩ | ⟨_, -, rfl⟩⟩
  · exact .inr (.inl ⟨hi, rfl⟩)
  · exact .inl rfl
  · exact .inr (.inr (.inr ⟨val, wid, hi, hl, rfl⟩))
  · exact .inr (.inr (.inl ⟨hi, rfl⟩))
  all_goals exact .inl rfl

/-- All that a command can do to the user reader. -/
theorem exec_br_cases {i : Instr} {s s' : State} (he : exec i s = .next s') :
    s'.br = s.br ∨ (∃ bytes, i = .brnew bytes ∧ s'.br = Reader.fresh bytes) ∨
    (∃ wid, i = .rdbits wid ∧ s.br.live = true ∧ s'.br = (s.br.readBits wid.toNat).1) := by
  rcases exec_cases he with ⟨-, rfl⟩ | ⟨_, rfl, -⟩ | ⟨_, _, -, -, -, rfl⟩ | ⟨-, -, rfl⟩ | ⟨bytes, hi, rfl⟩ |
    ⟨wid, hi, hl, -, ⟨_, _, hr, rfl⟩ | ⟨_, hr, rfl⟩⟩
  iterate 4 exact .inl rfl
  · exact .inr (.inl ⟨bytes, hi, rfl⟩)
  · exact .inr (.inr ⟨wid, hi, hl, by rw [hr]; rfl⟩)
  · exact .inr (.inr ⟨wid, hi, hl, by rw [hr]; rfl⟩)

/-- A fetch keeps the input and `live`, in every state of the registers. -/
theorem fetch_frame {r r' : Reader} (h : r.fetch = some r') : r'.live = r.live ∧ r'.src = r.src := by
  unfold Reader.fetch at h
  split at h
  · cases hb : memRead r.src r.idx with
    | none => simp [hb] at h
    | some b =>
      simp only [hb, Option.some.injEq] at h
      subst h
      exact ⟨rfl, rfl⟩
  · cases h
    exact ⟨rfl, rfl⟩

theorem readLoop_frame (n acc : Nat) (r : Reader) :
    (Reader.readLoop n acc r).1.live = r.live ∧ (Reader.readLoop n acc r).1.src = r.src := by
  induction n generalizing acc r with
  | zero => exact ⟨rfl, rfl⟩
  | succ n ih =>
    rw [Reader.readLoop]
    cases hf : r.fetch with
    | none => exact ⟨rfl, rfl⟩
    | some r' =>
      obtain ⟨hlive, hsrc⟩ := fetch_frame hf
      obtain ⟨ihlive, ihsrc⟩ := ih (acc * 2 + r'.topBit.toNat) r'.dropBit
      exact ⟨ihlive.trans hlive, ihsrc.trans hsrc⟩

@[simp] theorem readBits_live (r : Reader) (n : Nat) : (r.readBits n).1.live = r.live := (readLoop_frame n 0 r).1
@[simp] theorem readBits_src (r : Reader) (n : Nat) : (r.readBits n).1.src = r.src := (readLoop_frame n 0 r).2

/-! ## What keeps the invariant (10_state.md R22 to R28, R34) -/

theorem writer_consumed_inv : Writer.consumed.Inv := writer_reset_inv

theorem exec_bw_inv {i : Instr} {s s' : State} (h : s.bw.Inv) (he : exec i s = .next s') : s'.bw.Inv := by
  rcases exec_bw_cases he with hw | ⟨-, hw⟩ | ⟨-, hw⟩ | ⟨_, _, -, hl, hw⟩ <;> rw [hw]
  · exact h
  · exact writer_empty_inv
  · exact writer_consumed_inv
  · exact writeBits_inv _ _ h hl

theorem exec_br_inv {i : Instr} {s s' : State} (h : s.br.Inv) (he : exec i s = .next s') : s'.br.Inv := by
  rcases exec_br_cases he with hr | ⟨bytes, -, hr⟩ | ⟨_, -, hl, hr⟩ <;> rw [hr]
  · exact h
  · exact fresh_inv bytes
  · exact readBits_inv h hl _

theorem exec_inv {i : Instr} {s s' : State} (h : s.Inv) (he : exec i s = .next s') : s'.Inv := by
  obtain ⟨hw, hr, -⟩ := h
  obtain ⟨r, hs', hri⟩ := exec_response he
  exact ⟨exec_bw_inv hw he, exec_br_inv hr he, fun r' h' => by cases hs'.symm.trans h'; exact hri⟩

theorem setScript_inv {s : State} (h : s.Inv) (rest : List HostEvent) : (s.setScript rest).Inv := h

theorem respond_inv {s : State} (h : s.Inv) {r : Response} (hr : r.Inv) : (s.respond r).Inv := by
  obtain ⟨hw, hrd, -⟩ := h
  exact ⟨hw, hrd, fun r' h' => by cases h'; exact hr⟩

theorem state_reset_inv : State.reset.Inv :=
  ⟨writer_reset_inv, reader_reset_inv, fun _ h => by simp at h⟩

theorem step_inv {s s' : State} (h : s.Inv) (he : step s = .next s') : s'.Inv := by
  rcases step_cases s with ⟨-, hs⟩ | ⟨rest, -, hs⟩ | ⟨_, rest, i, -, -, hs⟩ | ⟨_, rest, _, -, -, hs⟩ <;> rw [hs] at he
  · cases he
    exact h
  · cases he
    exact setScript_inv state_reset_inv rest
  · exact exec_inv (setScript_inv h rest) he
  · cases he
    exact respond_inv (setScript_inv h rest) (fail_inv _)

/-- The step rule of a presented command (10_state.md R20). -/
theorem step_present {s : State} {p : Request} {rest : List HostEvent} {i : Instr}
    (hs : s.script = .present p :: rest) (hd : decodeRequest p = .ok i) : step s = exec i (s.setScript rest) := by
  simp only [step, hs, hd]

end Sys2Proof.Machine

/-! PROOFS. The statements of 10_state.md: the registers at reset, their invariant, the access matrix, the answer to
every command. -/

namespace Sys2Proof.Machine

/-- Settles O3: the case split over what a step can do is `step_inv`. -/
theorem everyStepKeepsInvariant : Obligations.EveryStepKeepsInvariant :=
  fun _ _ h he => step_inv h he

/-- Settles O50: the answer of a pure command is one response for all states. -/
theorem pureCommandsDependOnOperandsOnly : Obligations.PureCommandsDependOnOperandsOnly := by
  refine ⟨fun i s s' hp he => ?_, fun i s u s' u' hp hs hu => ?_⟩
  · obtain ⟨r, rfl⟩ := exec_pure hp he
    exact ⟨rfl, rfl⟩
  · obtain ⟨r, -, h⟩ := exec_pure_uniform hp
    cases (h s).symm.trans hs
    cases (h u).symm.trans hu
    rfl

/-- Settles O51, register by register: the commands that write one are the cases of `exec_bw_cases` and
`exec_br_cases`. -/
theorem commandsKeepRegistersTheyDoNotWrite : Obligations.CommandsKeepRegistersTheyDoNotWrite := by
  intro i s s' he
  refine ⟨exec_script he, fun ⟨hnew, hwr, hfin⟩ => ?_, fun val wid hi => ?_, fun ⟨hnew, hrd⟩ => ?_, fun hnew => ?_⟩
  · rcases exec_bw_cases he with h | ⟨hi, -⟩ | ⟨hi, -⟩ | ⟨val, wid, hi, -⟩
    · exact h
    · exact absurd hi hnew
    · exact absurd hi hfin
    · exact absurd hi (hwr val wid)
  · subst hi
    rcases exec_bw_cases he with h | ⟨hi, -⟩ | ⟨hi, -⟩ | ⟨_, _, -, -, h⟩
    · rw [h]
    · cases hi
    · cases hi
    · rw [h, writeBits_live]
  · rcases exec_br_cases he with h | ⟨bytes, hi, -⟩ | ⟨wid, hi, -⟩
    · exact h
    · exact absurd hi (hnew bytes)
    · exact absurd hi (hrd wid)
  · rcases exec_br_cases he with h | ⟨bytes, hi, -⟩ | ⟨_, -, -, h⟩
    · rw [h]
      exact ⟨rfl, rfl⟩
    · exact absurd hi (hnew bytes)
    · rw [h]
      exact ⟨readBits_live _ _, readBits_src _ _⟩

/-- Settles O1: the reset state is given register by register. -/
theorem resetStateHoldsTabulatedValues : Obligations.ResetStateHoldsTabulatedValues :=
  ⟨rfl, rfl, rfl, rfl, rfl, rfl, rfl, rfl, rfl, rfl⟩

/-- Settles O2. -/
theorem resetStateSatisfiesInvariant : Obligations.ResetStateSatisfiesInvariant := state_reset_inv

/-- Settles O6: taking the event off is `State.setScript`. -/
theorem stepRunsDecodedCommand : Obligations.StepRunsDecodedCommand :=
  fun _ _ _ _ hs hd => step_present hs hd

/-- Settles O10: a command has a next state, and every next state carries a response. -/
theorem everyCommandAnswers : Obligations.EveryCommandAnswers := by
  intro i s
  obtain ⟨s', he⟩ := exec_answers i s
  obtain ⟨r, hr, -⟩ := exec_response he
  exact ⟨s', r, he, hr, exec_script he⟩

end Sys2Proof.Machine

/-! PROOFS. The facts about the decoder and the encoder of command words (30_encoding.md R87, R88, R90;
10_state.md R33), in the order of Decode.lean. -/

namespace Sys2Proof

/-! ## The decoder, row by row of the command table -/

/-- What a decoded command says of its presentation: its word and its operands. -/
theorem carriedBy_of_decodeRequest {p : Request} {i : Instr} (h : decodeRequest p = .ok i) :
    p.cmd = i.word ∧ i.carriedBy p = true := by
  unfold decodeRequest at h
  split at h <;> cases h
  all_goals exact ⟨BitVec.eq_of_toNat_eq ‹_›, by simp [Instr.carriedBy]⟩

/-- The word and the operands of a command are all that the decoder looks at. -/
theorem decodeRequest_of_carriedBy {p : Request} {i : Instr} (hw : p.cmd = i.word) (hc : i.carriedBy p = true) :
    decodeRequest p = .ok i := by
  cases i <;> simp only [Instr.carriedBy, Bool.and_eq_true, beq_iff_eq] at hc <;>
    simp [decodeRequest, hw, Instr.word, hc]

theorem decodeRequest_ok_iff {p : Request} {i : Instr} :
    decodeRequest p = .ok i ↔ p.cmd = i.word ∧ i.carriedBy p = true :=
  ⟨carriedBy_of_decodeRequest, fun ⟨hw, hc⟩ => decodeRequest_of_carriedBy hw hc⟩

theorem word_range (i : Instr) : 1 ≤ i.word.toNat ∧ i.word.toNat ≤ 13 := by
  cases i <;> simp [Instr.word]

/-- The decoder refuses the words outside 1 to 13, the opcodes of the table. -/
theorem decodeRequest_error_iff {p : Request} :
    (∃ e, decodeRequest p = .error e) ↔ p.cmd.toNat = 0 ∨ 13 < p.cmd.toNat := by
  cases hd : decodeRequest p with
  | ok i =>
    obtain ⟨hw, -⟩ := carriedBy_of_decodeRequest hd
    have := word_range i
    rw [hw]
    simp only [reduceCtorEq, exists_false, false_iff]
    omega
  | error e =>
    refine iff_of_true ⟨e, rfl⟩ ?_
    by_contra hin
    have hlo : 1 ≤ p.cmd.toNat := by omega
    have hhi : p.cmd.toNat ≤ 13 := by omega
    interval_cases h : p.cmd.toNat <;> simp [decodeRequest, h] at hd

/-- The reserved words as 30_encoding.md R90 lists them. -/
theorem reserved_iff (c : BitVec 8) :
    (c = 0x00 ∨ c = 0x0E ∨ c = 0x0F ∨ 0x10 ≤ c.toNat) ↔ c.toNat = 0 ∨ 13 < c.toNat := by
  bv_omega

theorem decodeTableWord_word {i : Instr} (hc : i.carriedBy (Request.bare i.word) = true) :
    decodeTableWord 8 i.word.toNat = some i := by
  have hd : decodeRequest (Request.bare i.word) = .ok i := decodeRequest_of_carriedBy rfl hc
  simp [decodeTableWord, hd, i.word.isLt]

/-! ## The encoder -/

@[simp] theorem encode_cmd (i : Instr) : (encode i).cmd = i.word := by cases i <;> rfl

@[simp] theorem carriedBy_encode (i : Instr) : i.carriedBy (encode i) = true := by
  cases i <;> simp [Instr.carriedBy, encode]

@[simp] theorem decodeRequest_encode (i : Instr) : decodeRequest (encode i) = .ok i :=
  decodeRequest_of_carriedBy (encode_cmd i) (carriedBy_encode i)

/-! ## The port limits -/

/-- The family `PortFit` has a member for every command. -/
theorem wellFormed_eq_encode_fits (i : Instr) : Laws.PortFit.Statement i := by
  cases i
  case bwnew => exact Laws.PortFit.bwnew
  case wrbits val wid => exact Laws.PortFit.wrbits val wid
  case bwfin => exact Laws.PortFit.bwfin
  case brnew bytes => exact Laws.PortFit.brnew bytes
  case rdbits wid => exact Laws.PortFit.rdbits wid
  case brpos => exact Laws.PortFit.brpos
  case encpay val => exact Laws.PortFit.encpay val
  case decpay payload wid => exact Laws.PortFit.decpay payload wid
  case cfgchk j t => exact Laws.PortFit.cfgchk j t
  case maxw j t => exact Laws.PortFit.maxw j t
  case encode val j t => exact Laws.PortFit.encode val j t
  case decode bytes j t => exact Laws.PortFit.decode bytes j t
  case bitlen val j t => exact Laws.PortFit.bitlen val j t

/-- Operands taken from ports within the limits are within the limits. -/
theorem wellFormed_of_carriedBy {lim : PortLimits} {p : Request} {i : Instr} (hf : p.fits lim = true)
    (hc : i.carriedBy p = true) : i.wellFormed lim = true := by
  obtain ⟨ht, hi⟩ : lim.tiersFit p.t = true ∧ lim.inputFits p.inp = true := by simpa [Request.fits] using hf
  cases i <;> simp only [Instr.carriedBy, Bool.and_eq_true, beq_iff_eq] at hc
  case brnew => exact hc ▸ hi
  case cfgchk | maxw =>
    obtain ⟨-, rfl⟩ := hc
    exact ht
  case encode | bitlen =>
    obtain ⟨⟨-, -⟩, rfl⟩ := hc
    exact ht
  case decode =>
    obtain ⟨⟨rfl, -⟩, rfl⟩ := hc
    simp [Instr.wellFormed, ht, hi]
  all_goals rfl

end Sys2Proof

namespace Sys2Proof.Machine

/-- The step rule of a reserved word (30_encoding.md R90, 60_exceptions.md R215). -/
theorem step_reserved {s : State} {p : Request} {rest : List HostEvent} {e : ReservedWord}
    (hs : s.script = .present p :: rest) (hd : decodeRequest p = .error e) :
    step s = .next ((s.setScript rest).respond (.fail .cmdRefused)) := by
  simp only [step, hs, hd, answerReserved, raise_eq]

end Sys2Proof.Machine

/-! PROOFS. The length of a code word (30_encoding.md R81, R84; 43_tier_encode.md R160, R163, R164). -/

namespace Sys2Proof.Machine

/-! ## The tier chain, one tier at a time -/

theorem chainOf_succ (v t : Nat) : chainOf v (t + 1) = encodePayload (topmostWidth v t) :: chainOf v t := by
  simp only [chainOf, topmostWidth, buildChain_succ]

theorem topmostWidth_succ (v t : Nat) : topmostWidth v (t + 1) = (encodePayload (topmostWidth v t)).width := by
  simp only [topmostWidth, buildChain_succ]

/-- The topmost widths of a `u64` (43_tier_encode.md R163). -/
theorem topmostWidth_bounds {v t : Nat} (hv : v < 2 ^ 64) (ht : 1 ≤ t) :
    2 ≤ topmostWidth v t ∧ topmostWidth v t ≤ 6 ∧ (2 ≤ t → topmostWidth v t ≤ 3) ∧
      (3 ≤ t → topmostWidth v t = 2) := by
  obtain ⟨-, h1, h2, h3⟩ :=
    buildChain_top (t := t) (chain := []) (encodePayload_spec v).1 (encodePayload_width_le_64 hv)
  obtain ⟨hlo, hhi, -⟩ := h1 ht
  exact ⟨hlo, hhi, fun h => (h2 h).1, h3⟩

/-- The bits of all tier fields of a value. -/
def tierBits (v t : Nat) : Nat := ((chainOf v t).map fun e => e.width).sum

/-- Each tier adds the topmost width it leads to. -/
theorem tierBits_succ (v t : Nat) : tierBits v (t + 1) = topmostWidth v (t + 1) + tierBits v t := by
  simp only [tierBits, chainOf_succ, topmostWidth_succ, List.map_cons, List.sum_cons]

theorem tierBits_one (v : Nat) : tierBits v 1 = topmostWidth v 1 := tierBits_succ v 0

/-- The tier columns of the table of 43_tier_encode.md R164: at most 6 bits for tier 1, 3 for tier 2, and 2 for every
further one; at least 2 for each. -/
theorem tierBits_bounds {v t : Nat} (hv : v < 2 ^ 64) (ht : 1 ≤ t) :
    2 * t ≤ tierBits v t ∧ (t = 1 → tierBits v t ≤ 6) ∧ (2 ≤ t → tierBits v t ≤ 6 + 3 + 2 * (t - 2)) := by
  induction t, ht using Nat.le_induction with
  | base =>
    have := topmostWidth_bounds hv (le_refl 1)
    rw [tierBits_one]
    omega
  | succ t ht ih =>
    have := topmostWidth_bounds (t := t + 1) hv (by omega)
    rw [tierBits_succ]
    omega

/-! ## The code word and the answer of `ENCODE` -/

/-- The sum of the widths of the jumpstarter, the tier fields and the payload (30_encoding.md R81). -/
theorem codeWord_length (v j t : Nat) :
    (codeWord v j t).length = j + tierBits v t + (encodePayload v).width := by
  simp [codeWord, tierBits, List.length_flatMap, Nat.add_assoc]

/-- `ENCODE` answers the packed code word of an encodable value and changes nothing else (43_tier_encode.md R160). -/
theorem exec_encode_of_encodable {val : Word} {j : BitVec 4} {t : Nat}
    (h : encodable val.toNat j.toNat t = true) (s : State) :
    exec (.encode val j t) s = .next (s.respond (.ok (Results.bytes (pack (codeWord val.toNat j.toNat t))))) := by
  simp only [exec, execEncode, valOperand, encodeSteps_ok val.isLt h, Except.map, conclude_ok]

/-- Every bound of the table of 43_tier_encode.md R164 on the length of a code word. -/
theorem codeWord_length_bounds {v j t : Nat} (hv : v < 2 ^ 64) (h : encodable v j t = true) :
    4 ≤ (codeWord v j t).length ∧ j + 2 * t + 1 ≤ (codeWord v j t).length ∧
      (t = 1 → (codeWord v j t).length ≤ j + 6 + 64) ∧
      (2 ≤ t → (codeWord v j t).length ≤ j + 6 + 3 + 2 * (t - 2) + 64) := by
  obtain ⟨hc, -⟩ : validConfig j t = true ∧ (encodePayload v).width ≤ wlim j t := by simpa [encodable] using h
  obtain ⟨hj, -, ht⟩ := validConfig_iff.mp hc
  have hlo := (encodePayload_spec v).1
  have hhi := encodePayload_width_le_64 hv
  have htier := tierBits_bounds hv ht
  rw [codeWord_length]
  omega

end Sys2Proof.Machine

/-! PROOFS. The statements of 30_encoding.md: the command words, the reserved words, the length of a code word. -/

namespace Sys2Proof.Machine

/-- Settles O9: a command decodes from the presentations that carry it, and its encoding is one. -/
theorem decodeAndEncodeAgree : Obligations.DecodeAndEncodeAgree := by
  refine ⟨fun lim i hwf => ⟨?_, decodeRequest_encode i⟩, fun p i => decodeRequest_ok_iff, fun lim p i hf hd => ?_⟩
  · exact (wellFormed_eq_encode_fits i lim).symm.trans hwf
  · obtain ⟨-, hc⟩ := carriedBy_of_decodeRequest hd
    exact wellFormed_of_carriedBy hf hc

/-- Settles O7: the listed words are those the decoder refuses, and the step answers a refused word. -/
theorem reservedWordIsRefused : Obligations.ReservedWordIsRefused := by
  have hres (p : Request) := decodeRequest_error_iff.trans (reserved_iff p.cmd).symm
  refine ⟨hres, fun s p rest hs hp => ?_⟩
  obtain ⟨e, hd⟩ := (hres p).mpr hp
  exact step_reserved hs hd

/-- Settles O37: the length is the sum of the field widths, the tier fields' among them within `tierBits_bounds`. -/
theorem codeWordLengthIsTabulated : Obligations.CodeWordLengthIsTabulated := by
  refine ⟨fun val j t h => ?_, fun s val j t h => ?_⟩
  · obtain ⟨hmin, hlo, hone, hmore⟩ := codeWord_length_bounds val.isLt h
    refine ⟨codeWord_length _ _ _, hmin, fun ht => ⟨by omega, hone ht⟩, fun ht => ⟨by omega, ?_⟩,
      fun ht => ⟨hlo, hmore (by omega)⟩⟩
    subst ht
    exact hmore (le_refl 2)
  · exact ⟨_, exec_encode_of_encodable h s, rfl, pack_length _⟩

/-- Settles O8: every row is the word of its command, whose operands the bare presentation carries. -/
theorem commandWordsDecodeAsTabulated : Obligations.CommandWordsDecodeAsTabulated :=
  ⟨decodeTableWord_word (i := .bwnew) rfl, decodeTableWord_word (i := .wrbits 0 0) rfl,
    decodeTableWord_word (i := .bwfin) rfl, decodeTableWord_word (i := .brnew []) rfl,
    decodeTableWord_word (i := .rdbits 0) rfl, decodeTableWord_word (i := .brpos) rfl,
    decodeTableWord_word (i := .encpay 0) rfl, decodeTableWord_word (i := .decpay 0 0) rfl,
    decodeTableWord_word (i := .cfgchk 0 0) rfl, decodeTableWord_word (i := .maxw 0 0) rfl,
    decodeTableWord_word (i := .encode 0 0 0) rfl, decodeTableWord_word (i := .decode [] 0 0) rfl,
    decodeTableWord_word (i := .bitlen 0 0 0) rfl⟩

end Sys2Proof.Machine

/-! PROOFS. Layer on the bit writer's commands: what `exec` answers for `BWNEW`, `WRBITS` and `BWFIN`, in the order of
BitWriter.lean (40_bit_writer.md R111 to R117), and a sequence of commands, one command at a time. -/

namespace Sys2Proof.Machine

/-! ## A run as the bits it pushes -/

theorem writeBits_eq_foldl (v n : Nat) (w : Writer) :
    Writer.writeBits v n w = (be v n).foldl Writer.pushBit w := by
  induction n generalizing w with
  | zero => rfl
  | succ n ih => rw [Writer.writeBits, ih, be_succ, List.foldl_cons]

/-- A run writes only the low bits of its value (40_bit_writer.md R117). -/
theorem writeBits_congr {v u n : Nat} (h : v % 2 ^ n = u % 2 ^ n) (w : Writer) :
    Writer.writeBits v n w = Writer.writeBits u n w := by
  have hbits : be v n = be u n := by rw [← be_mod v, h, be_mod]
  rw [writeBits_eq_foldl, hbits, ← writeBits_eq_foldl]

/-! ## The commands, outcome by outcome -/

theorem exec_bwnew (s : State) :
    exec .bwnew s = .next ((s.setWriter Writer.empty).respond (.ok Results.none)) := rfl

theorem exec_wrbits_refused {s : State} {wid : BitVec 7} (h : s.bw.live = false ∨ 64 < wid.toNat) (val : Word) :
    exec (.wrbits val wid) s = .next (s.respond (.fail .cmdRefused)) := by
  simp only [exec, execWrbits]
  split
  · rfl
  · rename_i hlive
    rw [runWidth_none (h.resolve_left hlive)]
    rfl

theorem exec_wrbits_live {s : State} {wid : BitVec 7} (hlive : s.bw.live = true) (hwid : wid.toNat ≤ 64)
    (val : Word) :
    exec (.wrbits val wid) s =
      .next ((s.setWriter (Writer.writeBits val.toNat wid.toNat s.bw)).respond (.ok Results.none)) := by
  simp [exec, execWrbits, hlive, runWidth_some hwid, valOperand]

theorem exec_bwfin_refused {s : State} (h : s.bw.live = false) :
    exec .bwfin s = .next (s.respond (.fail .cmdRefused)) := by
  simp [exec, execBwfin, h]

theorem exec_bwfin_live {s : State} (h : s.bw.live = true) :
    exec .bwfin s = .next ((s.setWriter Writer.consumed).respond (.ok (Results.bytes (pack s.bw.content)))) := by
  simp [exec, execBwfin, h, finalBytes_eq_pack]

/-! ## A sequence of commands -/

theorem execAll_cons {i : Instr} {s s' : State} (h : exec i s = .next s') (rest : List Instr) :
    execAll (i :: rest) s = execAll rest s' := by
  simp only [execAll, h]

/-- Runs into a live writer, then finalize: the packed content before them and their concatenation
(40_bit_writer.md R114). -/
theorem execAll_wrbits_bwfin {s : State} {runs : List (Word × BitVec 7)} (hlive : s.bw.live = true)
    (hruns : ∀ r ∈ runs, r.2.toNat ≤ 64) :
    execAll (runs.map (fun r => .wrbits r.1 r.2) ++ [.bwfin]) s =
      .next ((s.setWriter Writer.consumed).respond
        (.ok (Results.bytes (pack (s.bw.content ++ runs.flatMap fun r => be r.1.toNat r.2.toNat))))) := by
  induction runs generalizing s with
  | nil =>
    rw [List.map_nil, List.nil_append, execAll_cons (exec_bwfin_live hlive), List.flatMap_nil, List.append_nil]
    rfl
  | cons run runs ih =>
    obtain ⟨hrun, hrest⟩ := List.forall_mem_cons.mp hruns
    rw [List.map_cons, List.cons_append, execAll_cons (exec_wrbits_live hlive hrun run.1), ih (by simpa) hrest,
      respond_bw, setWriter_bw, writeBits_content, List.append_assoc, List.flatMap_cons]
    rfl

/-- Between `BWNEW` and `BWFIN` nothing but the runs is in the content. -/
theorem execAll_bwnew_wrbits_bwfin {runs : List (Word × BitVec 7)} (hruns : ∀ r ∈ runs, r.2.toNat ≤ 64)
    (s : State) :
    execAll (.bwnew :: runs.map (fun r => .wrbits r.1 r.2) ++ [.bwfin]) s =
      .next ((s.setWriter Writer.consumed).respond
        (.ok (Results.bytes (pack (runs.flatMap fun r => be r.1.toNat r.2.toNat))))) := by
  rw [List.cons_append, execAll_cons (exec_bwnew s), execAll_wrbits_bwfin rfl hruns, respond_bw, setWriter_bw,
    empty_content, List.nil_append]
  rfl

end Sys2Proof.Machine

/-! PROOFS. The statements of 40_bit_writer.md: create, append, finalize, the consumed writer, the cutting into runs. -/

namespace Sys2Proof.Machine

/-- Settles O12. -/
theorem bwnewCreatesEmptyWriter : Obligations.BwnewCreatesEmptyWriter :=
  ⟨fun _ hp => decodeRequest_of_carriedBy hp rfl, exec_bwnew⟩

/-- Settles O13: the writer after the run is `Writer.writeBits`, whose laws are the clauses. -/
theorem wrbitsAppendsRun : Obligations.WrbitsAppendsRun := by
  refine ⟨fun p hp => decodeRequest_of_carriedBy hp (by simp [Instr.carriedBy]),
    fun _ val _ h => exec_wrbits_refused h val, fun s val wid hlive hwid => ?_⟩
  obtain ⟨hbuf, hcnt⟩ := writeBits_counts val.toNat wid.toNat s.bw
  exact ⟨Writer.writeBits val.toNat wid.toNat s.bw, exec_wrbits_live hlive hwid val, (writeBits_live ..).trans hlive,
    writeBits_content .., writeBits_buf .., hbuf, hcnt, fun hinv => writeBits_inv _ _ hinv hlive⟩

/-- Settles O14: both values write the same run. -/
theorem wrbitsIgnoresHighBits : Obligations.WrbitsIgnoresHighBits := by
  intro s val val' wid hlive hwid hlow
  refine ⟨?_, _, exec_wrbits_live hlive hwid val⟩
  rw [exec_wrbits_live hlive hwid, exec_wrbits_live hlive hwid, writeBits_congr hlow]

/-- Settles O15. -/
theorem bwfinYieldsPackedContent : Obligations.BwfinYieldsPackedContent :=
  ⟨fun _ hp => decodeRequest_of_carriedBy hp rfl, fun _ => exec_bwfin_refused, fun _ => exec_bwfin_live,
    fun s => (pack_length _).trans (congrArg ceil8 (content_length s.bw))⟩

/-- Settles O16: of the commands that write `BW`, only `BWNEW` does so while the writer is not live. -/
theorem consumedWriterIsUnusable : Obligations.ConsumedWriterIsUnusable := by
  refine ⟨rfl, fun s s' hlive he => ?_, fun s s' i hdead hnew he => ?_,
    fun s val wid hdead => ⟨exec_wrbits_refused (.inl hdead) val, exec_bwfin_refused hdead⟩⟩
  · cases (exec_bwfin_live hlive).symm.trans he
    rfl
  · rcases exec_bw_cases he with h | ⟨hi, -⟩ | ⟨rfl, -⟩ | ⟨_, _, -, hlive, -⟩
    · exact h
    · exact absurd hi hnew
    · cases (exec_bwfin_refused hdead).symm.trans he
      rfl
    · rw [hdead] at hlive
      cases hlive

/-- Settles O17: every cutting gives the packed concatenation of its runs, so equal concatenations give equal
outcomes. -/
theorem writerForgetsRunBoundaries : Obligations.WriterForgetsRunBoundaries := by
  refine ⟨fun s _ hruns => execAll_bwnew_wrbits_bwfin hruns s, fun s runs runs' hruns hruns' hconcat => ?_⟩
  rw [execAll_bwnew_wrbits_bwfin hruns, execAll_bwnew_wrbits_bwfin hruns', hconcat]

end Sys2Proof.Machine

/-! PROOFS. Layer on the bit reader's commands: what the position says about the cursor, what a read does under the
invariant, and what `exec` answers for `BRNEW`, `RDBITS` and `BRPOS`, in the order of BitReader.lean
(41_bit_reader.md R126 to R131). -/

namespace Sys2Proof.Machine

/-! ## The cursor and its position (10_state.md R28) -/

theorem Reader.Inv.cnt_le {r : Reader} (h : r.Inv) : r.cnt.toNat ≤ 7 := by
  obtain ⟨-, hcnt, -⟩ := h
  exact hcnt

theorem Reader.Inv.idx_eq {r : Reader} (h : r.Inv) : r.idx = ceil8 r.pos := by
  have hpos := h.cursor.pos_add_cnt
  have hcnt := h.cnt_le
  unfold ceil8
  omega

theorem Reader.Inv.cnt_eq {r : Reader} (h : r.Inv) : r.cnt.toNat = (8 - r.pos % 8) % 8 := by
  have hpos := h.cursor.pos_add_cnt
  have hcnt := h.cnt_le
  omega

theorem pos_of_idx_cnt {r : Reader} (hidx : r.idx = r.src.length) (hcnt : r.cnt = 0) :
    r.pos = 8 * r.src.length := by
  simp [Reader.pos, hidx, hcnt]

theorem remaining_eq_nil {r : Reader} (h : r.pos = 8 * r.src.length) : r.remaining = [] :=
  List.eq_nil_of_length_eq_zero (by rw [remaining_length]; omega)

/-! ## A read between commands (41_bit_reader.md R128, R129) -/

theorem readBits_delivers {r : Reader} (h : r.Inv) (hlive : r.live = true) {n : Nat}
    (hn : r.pos + n ≤ 8 * r.src.length) :
    ∃ r', r.readBits n = (r', some (bitsVal (r.remaining.take n))) ∧ r'.Inv ∧ r'.live = true ∧ r'.src = r.src ∧
      r'.pos = r.pos + n := by
  obtain ⟨r', hr, -, -, hl, hs, hp⟩ := readBits_ok h.cursor (n := n) (by rw [remaining_length]; omega)
  have hinv := readBits_inv h hlive n
  rw [hr] at hinv
  exact ⟨r', hr, hinv, hl.trans hlive, hs, hp⟩

theorem readBits_runs_out {r : Reader} (h : r.Inv) (hlive : r.live = true) {n : Nat}
    (hn : 8 * r.src.length - r.pos < n) :
    ∃ r', r.readBits n = (r', none) ∧ r'.Inv ∧ r'.live = true ∧ r'.src = r.src ∧ r'.idx = r.src.length ∧
      r'.cnt = 0 := by
  obtain ⟨r', hr, -, hl, hs, hi, hc⟩ := readBits_eof h.cursor (n := n) (by rwa [remaining_length])
  have hinv := readBits_inv h hlive n
  rw [hr] at hinv
  exact ⟨r', hr, hinv, hl.trans hlive, hs, hi, hc⟩

/-- At the end of the input the first fetch fails, so not even the pending byte changes (41_bit_reader.md R130). -/
theorem readBits_exhausted {r : Reader} (h : r.Cursor) (hend : r.remaining = []) {n : Nat} (hn : 1 ≤ n) :
    r.readBits n = (r, none) := by
  obtain ⟨k, rfl⟩ := Nat.exists_eq_add_of_le' hn
  rcases fetch_spec h with ⟨hf, -⟩ | ⟨r', -, -, -, -, -, -, hrem⟩
  · simp only [Reader.readBits, Reader.readLoop, hf]
  · rw [hend] at hrem
    cases hrem

/-! ## The commands, outcome by outcome -/

theorem exec_brnew (bytes : List Byte) (s : State) :
    exec (.brnew bytes) s = .next ((s.setReader (Reader.fresh bytes)).respond (.ok Results.none)) := rfl

theorem exec_rdbits_refused {s : State} {wid : BitVec 7} (h : s.br.live = false ∨ 64 < wid.toNat) :
    exec (.rdbits wid) s = .next (s.respond (.fail .cmdRefused)) := by
  simp only [exec, execRdbits]
  split
  · rfl
  · rename_i hlive
    rw [runWidth_none (h.resolve_left hlive)]
    rfl

theorem exec_rdbits_some {s : State} {wid : BitVec 7} {r : Reader} {v : Nat} (hlive : s.br.live = true)
    (hwid : wid.toNat ≤ 64) (hr : s.br.readBits wid.toNat = (r, some v)) :
    exec (.rdbits wid) s = .next ((s.setReader r).respond (.ok (Results.value v))) := by
  simp [exec, execRdbits, hlive, runWidth_some hwid, hr]

theorem exec_rdbits_none {s : State} {wid : BitVec 7} {r : Reader} (hlive : s.br.live = true)
    (hwid : wid.toNat ≤ 64) (hr : s.br.readBits wid.toNat = (r, none)) :
    exec (.rdbits wid) s = .next ((s.setReader r).respond (.fail .unexpectedEof)) := by
  simp [exec, execRdbits, hlive, runWidth_some hwid, hr]

theorem exec_rdbits_exhausted {s : State} {wid : BitVec 7} (h : s.br.Cursor) (hlive : s.br.live = true)
    (hend : s.br.remaining = []) (hpos : 1 ≤ wid.toNat) (hwid : wid.toNat ≤ 64) :
    exec (.rdbits wid) s = .next (s.respond (.fail .unexpectedEof)) :=
  exec_rdbits_none hlive hwid (readBits_exhausted h hend hpos)

/-- Of the four outcomes of `RDBITS`, only the read that runs out of input answers `UnexpectedEof`. -/
theorem exec_rdbits_eof_iff {s : State} (h : s.br.Inv) (wid : BitVec 7) :
    (∃ s', exec (.rdbits wid) s = .next s' ∧ s'.response = some (.fail .unexpectedEof)) ↔
      s.br.live = true ∧ wid.toNat ≤ 64 ∧ 8 * s.br.src.length - s.br.pos < wid.toNat := by
  constructor
  · rintro ⟨s', he, hresp⟩
    by_cases hrefused : s.br.live = false ∨ 64 < wid.toNat
    · cases (exec_rdbits_refused hrefused).symm.trans he
      cases hresp
    obtain ⟨hlive, hwid⟩ : s.br.live = true ∧ wid.toNat ≤ 64 := by simpa using hrefused
    refine ⟨hlive, hwid, not_le.mp fun hle => ?_⟩
    have hpos := h.cursor.pos_le
    obtain ⟨r, hr, -⟩ := readBits_delivers h hlive (n := wid.toNat) (by omega)
    cases (exec_rdbits_some hlive hwid hr).symm.trans he
    cases hresp
  · rintro ⟨hlive, hwid, hfew⟩
    obtain ⟨r, hr, -⟩ := readBits_runs_out h hlive hfew
    exact ⟨_, exec_rdbits_none hlive hwid hr, rfl⟩

theorem exec_brpos_refused {s : State} (h : s.br.live = false) :
    exec .brpos s = .next (s.respond (.fail .cmdRefused)) := by
  simp [exec, execBrpos, h]

theorem exec_brpos_live {s : State} (h : s.br.live = true) :
    exec .brpos s = .next (s.respond (.ok (Results.bits s.br.pos))) := by
  simp [exec, execBrpos, h]

/-! ## `DECODE` before its first field (44_tier_decode.md R170, R183) -/

theorem exec_decode_invalid {j : BitVec 4} {t : Nat} (h : validConfig j.toNat t = false) (bytes : List Byte)
    (s : State) : exec (.decode bytes j t) s = .next (s.respond (.fail .invalidEncoding)) := by
  simp [exec, execDecode, decodeSteps, h, Except.map]

theorem exec_decode_nil {j : BitVec 4} {t : Nat} (h : validConfig j.toNat t = true) (s : State) :
    exec (.decode [] j t) s = .next (s.respond (.fail .unexpectedEof)) := by
  obtain ⟨hj, -⟩ := validConfig_iff.mp h
  have hr := readBits_exhausted (fresh_cursor []) rfl hj
  simp [exec, execDecode, decodeSteps, h, hr, Except.map]

end Sys2Proof.Machine

/-! PROOFS. The statements of 41_bit_reader.md: create, read, the end of the input, the position, the empty input. -/

namespace Sys2Proof.Machine

/-- Settles O19: a read within the input delivers the head of the remaining bits, and the failing read is the only
outcome that answers `UnexpectedEof`. -/
theorem rdbitsDeliversRun : Obligations.RdbitsDeliversRun := by
  refine ⟨fun p hp => decodeRequest_of_carriedBy hp (by simp [Instr.carriedBy]), fun _ _ => exec_rdbits_refused,
    fun s wid h hlive hwid hn => ?_, fun s wid h hlive hwid => ?_⟩
  · obtain ⟨r, hr, hinv, hl, hs, hp⟩ := readBits_delivers h hlive hn
    have hlt : bitsVal (s.br.remaining.take wid.toNat) < 2 ^ wid.toNat :=
      (bitsVal_lt _).trans_le (Nat.pow_le_pow_right two_pos (List.length_take_le ..))
    exact ⟨r, exec_rdbits_some hlive hwid hr, hlt, hl, hs, hp, hinv, hp ▸ hinv.idx_eq⟩
  · rw [exec_rdbits_eof_iff h]
    exact ⟨fun ⟨_, _, hfew⟩ => hfew, fun hfew => ⟨hlive, hwid, hfew⟩⟩

/-- Settles O20. -/
theorem rdbitsPastEndConsumesRest : Obligations.RdbitsPastEndConsumesRest := by
  intro s wid h hlive hwid hfew
  obtain ⟨r, hr, hinv, hl, hs, hi, hc⟩ := readBits_runs_out h hlive hfew
  exact ⟨r, exec_rdbits_none hlive hwid hr, hl, hs, hi, hc, hs ▸ pos_of_idx_cnt (hs ▸ hi) hc, hinv⟩

/-- Settles O21: a failed read leaves the position at the end (O20), and there a read of one bit or more fails at its
first fetch. -/
theorem exhaustedReaderStaysConsistent : Obligations.ExhaustedReaderStaysConsistent := by
  refine ⟨fun s s' wid h he hresp => ?_, fun s h hlive hpos => ⟨?_, ?_, fun wid h1 h64 => ?_⟩⟩
  · obtain ⟨hlive, hwid, hfew⟩ := (exec_rdbits_eof_iff h wid).mp ⟨s', he, hresp⟩
    obtain ⟨r, hex, hl, hs, -, -, hp, hinv⟩ := rdbitsPastEndConsumesRest s wid h hlive hwid hfew
    cases hex.symm.trans he
    exact ⟨hl, hs ▸ hp, hinv⟩
  · rw [← hpos]
    exact exec_brpos_live hlive
  · exact exec_rdbits_some (wid := 0) hlive (Nat.zero_le _) rfl
  · exact exec_rdbits_exhausted h.cursor hlive (remaining_eq_nil hpos) h1 h64

/-- Settles O23: on empty input the first fetch fails, in `RDBITS` and in the jumpstarter read of `DECODE`. -/
theorem emptyInputFails : Obligations.EmptyInputFails := by
  refine ⟨fun s wid h1 h64 => ?_, fun s j t h1 h8 ht => exec_decode_nil (validConfig_iff.mpr ⟨h1, h8, ht⟩) s,
    fun s j t hbad => exec_decode_invalid (Bool.eq_false_iff.mpr (mt validConfig_iff.mp hbad)) [] s⟩
  have hnew := exec_brnew [] s
  have hread := exec_rdbits_exhausted (s := (s.setReader (Reader.fresh [])).respond (.ok Results.none))
    (fresh_cursor []) rfl rfl h1 h64
  refine ⟨?_, ?_, ?_⟩
  · rw [execAll_cons hnew, execAll_cons hread]
    rfl
  · rw [execAll_cons hnew, execAll_cons hread, execAll_cons (exec_brpos_live rfl)]
    rfl
  · rw [execAll_cons hnew, execAll_cons (exec_brpos_live rfl)]
    rfl

/-- Settles O18. -/
theorem brnewLoadsSequence : Obligations.BrnewLoadsSequence :=
  ⟨fun _ hp => decodeRequest_of_carriedBy hp (by simp [Instr.carriedBy]), fun s bytes => ⟨exec_brnew bytes s, rfl⟩⟩

/-- Settles O22. -/
theorem brposReportsPosition : Obligations.BrposReportsPosition :=
  ⟨fun _ hp => decodeRequest_of_carriedBy hp rfl, fun _ => exec_brpos_refused, fun _ => exec_brpos_live,
    fun _ h => ⟨h.cursor.pos_le, h.idx_eq, h.cnt_eq⟩⟩

end Sys2Proof.Machine

/-! PROOFS. Layer on the payload codec: the buckets and the widths they select, the place of a value in its bucket, and
what `exec` answers for `ENCPAY` and `DECPAY`, in the order of PayloadCodec.lean (42_payload_codec.md R140 to R148). -/

namespace Sys2Proof.Machine

/-! ## The buckets (42_payload_codec.md R140, R141) -/

theorem bucketStart_add_two {w : Nat} (hw : 1 ≤ w) : bucketStart w + 2 = 2 ^ w :=
  Nat.sub_add_cancel (two_le_two_pow hw)

theorem bucketStart_succ {w : Nat} (hw : 1 ≤ w) : bucketStart (w + 1) = bucketEnd w + 1 := by
  have hpow := two_le_two_pow hw
  rw [bucketStart, bucketEnd, Nat.pow_succ]
  omega

/-- A bucket has `2^w` members. -/
theorem bucketEnd_add_one {w : Nat} (hw : 1 ≤ w) : bucketEnd w + 1 = bucketStart w + 2 ^ w := by
  have hpow := two_le_two_pow hw
  rw [bucketStart, bucketEnd, Nat.pow_succ]
  omega

theorem bucketStart_le_bucketEnd {w : Nat} (hw : 1 ≤ w) : bucketStart w ≤ bucketEnd w := by
  have hsize := bucketEnd_add_one hw
  have hpow := two_le_two_pow hw
  omega

/-! ## The width of a number (42_payload_codec.md R142, R148) -/

theorem wof_bucketStart {w : Nat} (hw : 1 ≤ w) : wof (bucketStart w) = w :=
  (wof_eq_iff _ w hw).mpr ⟨le_refl _, bucketStart_le_bucketEnd hw⟩

theorem wof_bucketEnd {w : Nat} (hw : 1 ≤ w) : wof (bucketEnd w) = w :=
  (wof_eq_iff _ w hw).mpr ⟨bucketStart_le_bucketEnd hw, le_refl _⟩

theorem wof_bucketEnd_add_one {w : Nat} (hw : 1 ≤ w) : wof (bucketEnd w + 1) = w + 1 := by
  rw [← bucketStart_succ hw, wof_bucketStart (Nat.le_succ_of_le hw)]

theorem wof_le_64 {m : Nat} (h : m ≤ 2 ^ 64) : wof m ≤ 64 :=
  calc wof m ≤ wof (bucketEnd 64) := wof_mono (h.trans (by simp [bucketEnd]))
    _ = 64 := wof_bucketEnd (by omega)

/-! ## The place of a value in its bucket (42_payload_codec.md R143, R146) -/

/-- The only field of fitting width that names `v` is the one `v` encodes to. -/
theorem encodePayload_eq {v w p : Nat} (hw : 1 ≤ w) (hp : p < 2 ^ w) (h : bucketStart w + p = v + 1) :
    encodePayload v = ⟨w, p⟩ :=
  encodePayload_of_decodeNumber hw hp (decodeNumber_ok_iff.mpr h)

/-- The values whose shifted magnitudes are the ends of a bucket (42_payload_codec.md R148). -/
theorem encodePayload_bucket_ends {w : Nat} (hw : 2 ≤ w) :
    encodePayload (2 ^ w - 3) = ⟨w, 0⟩ ∧ encodePayload (2 ^ (w + 1) - 4) = ⟨w, 2 ^ w - 1⟩ := by
  have h1 : 1 ≤ w := by omega
  have hstart := bucketStart_add_two h1
  have hpow : 2 ^ 2 ≤ 2 ^ w := Nat.pow_le_pow_right two_pos hw
  rw [Nat.pow_succ]
  exact ⟨encodePayload_eq h1 (by omega) (by omega), encodePayload_eq h1 (by omega) (by omega)⟩

theorem encodePayload_injective : Function.Injective encodePayload := by
  intro v v' h
  have hv := decodeNumber_encodePayload v
  rw [h, decodeNumber_encodePayload] at hv
  exact (Except.ok.inj hv).symm

theorem encodePayload_width_mono {v v' : Nat} (h : v ≤ v') : (encodePayload v).width ≤ (encodePayload v').width :=
  wof_mono (Nat.succ_le_succ h)

/-- The field of a `u64` fits the ports `RWID` and `RVAL` (42_payload_codec.md R143). -/
theorem encodePayload_eq_ports (val : Word) : ∃ (w : BitVec 7) (p : Word),
    encodePayload val.toNat = ⟨w.toNat, p.toNat⟩ ∧ 1 ≤ w.toNat ∧ w.toNat ≤ 64 ∧ p.toNat < 2 ^ w.toNat ∧
      bucketStart w.toNat + p.toNat = val.toNat + 1 := by
  obtain ⟨hlo, hplace, hfit⟩ := encodePayload_spec val.toNat
  have hhi := encodePayload_width_le_64 val.isLt
  have hpayload := hfit.trans_le (Nat.pow_le_pow_right two_pos hhi)
  refine ⟨BitVec.ofNatLT (encodePayload val.toNat).width (by omega),
    BitVec.ofNatLT (encodePayload val.toNat).payload hpayload, ?_⟩
  rw [BitVec.toNat_ofNatLT, BitVec.toNat_ofNatLT]
  exact ⟨rfl, hlo, hhi, hfit, hplace⟩

/-! ## The outcomes of `decode_payload` (42_payload_codec.md R145) -/

theorem decodeValue_invalidEncoding {p w : Nat} (h : bucketStart w + p = 0) :
    decodeValue p w = .error .invalidEncoding := by
  cases hd : decodeValue p w with
  | ok v =>
    obtain ⟨hv, -⟩ := decodeValue_ok_iff.mp hd
    omega
  | error k =>
    rcases decodeValue_error hd with ⟨rfl, -⟩ | ⟨-, hbig⟩
    · rfl
    · omega

theorem decodeValue_valueTooLarge {p w : Nat} (h : 2 ^ 64 < bucketStart w + p) :
    decodeValue p w = .error .valueTooLarge := by
  cases hd : decodeValue p w with
  | ok v =>
    obtain ⟨hv, hlt⟩ := decodeValue_ok_iff.mp hd
    omega
  | error k =>
    rcases decodeValue_error hd with ⟨-, hzero⟩ | ⟨rfl, -⟩
    · omega
    · rfl

/-! ## The commands, outcome by outcome -/

theorem results_value_toNat (v : Word) : Results.value v.toNat = ⟨some v, none, none, none⟩ := by
  simp [Results.value, Results.none]

theorem results_widthPayload_toNat (w : BitVec 7) (p : Word) :
    Results.widthPayload w.toNat p.toNat = ⟨some p, some w, none, none⟩ := by
  simp [Results.widthPayload, Results.width, Results.none]

theorem exec_encpay {val p : Word} {w : BitVec 7} (h : encodePayload val.toNat = ⟨w.toNat, p.toNat⟩) (s : State) :
    exec (.encpay val) s = .next (s.respond (.ok ⟨some p, some w, none, none⟩)) := by
  simp only [exec, execEncpay, valOperand, h, results_widthPayload_toNat, answer_eq]

theorem exec_decpay_refused {wid : BitVec 7} (h : wid.toNat = 0 ∨ 64 < wid.toNat) (payload : Word) (s : State) :
    exec (.decpay payload wid) s = .next (s.respond (.fail .cmdRefused)) := by
  simp only [exec, execDecpay, bucketWidth_none h, raise_eq]

section
variable {wid : BitVec 7} {payload : Word} (h1 : 1 ≤ wid.toNat) (h64 : wid.toNat ≤ 64)
include h1 h64

theorem exec_decpay_conclude (s : State) : exec (.decpay payload wid) s =
    conclude s ((decodeValue payload.toNat wid.toNat).map Results.value) := by
  simp only [exec, execDecpay, bucketWidth_some h1 h64, valOperand]

theorem exec_decpay_fail {k : Failure} (h : decodeValue payload.toNat wid.toNat = .error k) (s : State) :
    exec (.decpay payload wid) s = .next (s.respond (.fail k)) := by
  rw [exec_decpay_conclude h1 h64, h]
  rfl

/-- `DECPAY` answers `v` exactly for the fields that name `v`. -/
theorem exec_decpay_ok_iff {s : State} {v : Word} :
    exec (.decpay payload wid) s = .next (s.respond (.ok ⟨some v, none, none, none⟩)) ↔
      bucketStart wid.toNat + payload.toNat = v.toNat + 1 := by
  rw [exec_decpay_conclude h1 h64]
  constructor
  · intro he
    cases hd : decodeValue payload.toNat wid.toNat with
    | error k =>
      rw [hd] at he
      cases he
    | ok u =>
      obtain ⟨hu, hlt⟩ := decodeValue_ok_iff.mp hd
      rw [hd] at he
      cases he
      rwa [BitVec.toNat_ofNat, Nat.mod_eq_of_lt hlt]
  · intro hplace
    rw [decodeValue_ok_iff.mpr ⟨hplace, v.isLt⟩, Except.map, results_value_toNat, conclude_ok]

end

end Sys2Proof.Machine

/-! PROOFS. The statements of 42_payload_codec.md: the buckets, `ENCPAY`, `DECPAY`, their inversion, the boundaries. -/

namespace Sys2Proof.Machine

/-- Settles O25: `wof_eq_iff` is both existence and uniqueness, and the search stops at the width it names. -/
theorem bucketsPartitionNaturals : Obligations.BucketsPartitionNaturals := by
  refine ⟨rfl, fun w hw => ⟨?_, bucketStart_le_bucketEnd hw, bucketStart_succ hw⟩,
    fun m => ⟨one_le_wof m, wof_bounds m⟩, fun m w hw hlo hhi => ((wof_eq_iff m w hw).mpr ⟨hlo, hhi⟩).symm,
    fun m => ⟨Nat.log2_self_le (by omega), Nat.lt_log2_self⟩, fun m hm => ?_⟩
  · have hsize := bucketEnd_add_one hw
    have hle := bucketStart_le_bucketEnd hw
    omega
  · have hwof := wof_le_64 hm
    exact searchWidth_eq_wof m 64 1 (le_refl 1) (one_le_wof m) (by omega)

/-- Settles O26: width and place are those of `encodePayload`, which fit the ports. -/
theorem encpaySelectsBucket : Obligations.EncpaySelectsBucket := by
  refine ⟨fun p hp => decodeRequest_of_carriedBy hp (by simp [Instr.carriedBy]), fun s val => ?_⟩
  obtain ⟨w, p, he, h1, h64, hfit, hplace⟩ := encodePayload_eq_ports val
  have hsize := bucketEnd_add_one h1
  refine ⟨w.toNat, p.toNat, ?_, h1, h64, ?_, ?_, ?_, hfit⟩
  · rw [exec_encpay he, BitVec.ofNat_toNat, BitVec.ofNat_toNat, BitVec.setWidth_eq, BitVec.setWidth_eq]
    rfl
  · change bucketStart w.toNat ≤ _
    omega
  · change _ ≤ bucketEnd w.toNat
    omega
  · change _ = _ - bucketStart w.toNat
    omega

/-- Settles O27: the range of the width first, then the outcomes of `decode_payload`. -/
theorem decpayRecoversValue : Obligations.DecpayRecoversValue :=
  ⟨fun _ hp => decodeRequest_of_carriedBy hp (by simp [Instr.carriedBy]), fun s payload _ =>
    ⟨fun h => exec_decpay_refused h payload s,
      fun h1 h64 hzero => exec_decpay_fail h1 h64 (decodeValue_invalidEncoding hzero) s,
      fun h1 h64 hbig => exec_decpay_fail h1 h64 (decodeValue_valueTooLarge hbig) s,
      fun _ h1 h64 hplace => (exec_decpay_ok_iff h1 h64).mpr hplace⟩⟩

/-- Settles O28: both commands relate a value and a field by `start(w) + p = v + 1`, and a field that fits its width is
the only one that names its value. -/
theorem codecCommandsAreInverse : Obligations.CodecCommandsAreInverse := by
  refine ⟨fun s val => ?_, fun s w p v h1 h64 hfit he => ?_, fun _ _ => encodePayload_width_mono,
    fun _ _ h => encodePayload_injective h⟩
  · obtain ⟨w, p, he, h1, h64, -, hplace⟩ := encodePayload_eq_ports val
    exact ⟨w, p, exec_encpay he s, (exec_decpay_ok_iff h1 h64).mpr hplace⟩
  · have hplace := (exec_decpay_ok_iff h1 h64).mp he
    exact exec_encpay (encodePayload_eq h1 hfit hplace) s

/-- Settles O29: an operand one below a boundary has the boundary as its shifted magnitude. -/
theorem bucketBoundariesSelectWidths : Obligations.BucketBoundariesSelectWidths := by
  obtain ⟨hlast, -⟩ := encodePayload_bucket_ends (w := 64) (by omega)
  exact ⟨fun w hw => ⟨wof_bucketStart hw, wof_bucketEnd hw, wof_bucketEnd_add_one hw⟩,
    encodePayload_eq (le_refl 1) (by omega) rfl, fun _ => encodePayload_bucket_ends,
    fun _ hw => wof_bucketEnd_add_one hw, hlast, encodePayload_eq (by omega) (by omega) (by simp [bucketStart])⟩

end Sys2Proof.Machine

/-! PROOFS. Layer on the encoder and the bound: the bound as a table, which values a configuration can encode, the
entries of the tier chain, the fields of a code word, and what `exec` answers for `ENCODE`, in the order of
ConfigBound.lean and TierEncode.lean (45_config_bound.md R195; 43_tier_encode.md R155 to R166). -/

namespace Sys2Proof.Machine

/-! ## The bound and the encodable values (45_config_bound.md R195, 43_tier_encode.md R156, R157, R166) -/

theorem wlim_eq_table {j t : Nat} (h : validConfig j t = true) :
    wlim j t = if j = 1 ∧ t = 1 then 4 else if j = 1 ∧ t = 2 ∨ j = 2 ∧ t = 1 then 28 else 64 := by
  rcases wlim_cases h with ⟨rfl, rfl, h4⟩ | ⟨rfl, rfl, h28⟩ | ⟨rfl, rfl, h28⟩ | ⟨hj1, hj2, h64⟩
  · rw [h4, if_pos (by omega)]
  · rw [h28, if_neg (by omega), if_pos (by omega)]
  · rw [h28, if_neg (by omega), if_pos (by omega)]
  · rw [h64, if_neg (by omega), if_neg (by omega)]

/-- A width bounds exactly the values up to the end of its bucket, less the shift by one. -/
theorem encodePayload_width_le_iff {v w : Nat} (hw : 1 ≤ w) :
    (encodePayload v).width ≤ w ↔ v ≤ bucketEnd w - 1 := by
  have hend : 1 ≤ bucketEnd w := by
    have := bucketEnd_add_one hw
    have := two_le_two_pow hw
    omega
  refine ⟨fun hle => ?_, fun hv => encodePayload_width_le hw (by omega)⟩
  by_contra hv
  have hmono := wof_mono (show bucketEnd w + 1 ≤ v + 1 by omega)
  rw [wof_bucketEnd_add_one hw, ← encodePayload_width] at hmono
  omega

theorem encodable_iff {v j t : Nat} :
    encodable v j t = true ↔ validConfig j t = true ∧ (encodePayload v).width ≤ wlim j t := by
  simp [encodable]

theorem encodable_iff_le {v j t : Nat} :
    encodable v j t = true ↔ validConfig j t = true ∧ v ≤ bucketEnd (wlim j t) - 1 := by
  rw [encodable_iff]
  refine and_congr_right fun hc => encodePayload_width_le_iff ?_
  have := four_le_wlim j t hc
  omega

/-! ## The tier chain, entry by entry (43_tier_encode.md R158, R163) -/

/-- `CH[k + 1]` encodes the width that `k` tiers lead to. -/
theorem chainOf_getElem? {v k t : Nat} (h : k < t) :
    (chainOf v t)[t - (k + 1)]? = some (encodePayload (topmostWidth v k)) := by
  induction t, h using Nat.le_induction with
  | base => simp [chainOf_succ]
  | succ t hk ih =>
    rw [chainOf_succ, show t + 1 - (k + 1) = t - (k + 1) + 1 by omega, List.getElem?_cons_succ, ih]

theorem chainOf_length (v t : Nat) : (chainOf v t).length = t := buildChain_length t _ []

theorem topmostWidth_zero (v : Nat) : topmostWidth v 0 = (encodePayload v).width := rfl

/-- Every chain entry has the topmost width of some number of tiers. -/
theorem chainOf_width_le {v t : Nat} (hv : v < 2 ^ 64) {e : Tier} (he : e ∈ chainOf v t) : e.width ≤ 6 := by
  induction t with
  | zero => simp [chainOf, buildChain] at he
  | succ t ih =>
    rw [chainOf_succ, List.mem_cons] at he
    rcases he with rfl | he
    · obtain ⟨-, hle, -⟩ := topmostWidth_bounds hv (show 1 ≤ t + 1 by omega)
      rwa [topmostWidth_succ] at hle
    · exact ih he

/-- The first column of the table of 43_tier_encode.md R163: the encoding of a payload width. -/
theorem encodePayload_table {x : Nat} (h1 : 1 ≤ x) (h64 : x ≤ 64) :
    encodePayload x = if x ≤ 4 then ⟨2, x - 1⟩ else if x ≤ 12 then ⟨3, x - 5⟩ else if x ≤ 28 then ⟨4, x - 13⟩
      else if x ≤ 60 then ⟨5, x - 29⟩ else ⟨6, x - 61⟩ := by
  split_ifs <;> exact encodePayload_eq (by omega) (by omega) (by simp only [bucketStart]; omega)

/-- The second column of the table of 43_tier_encode.md R163: the encoding of a tier's width. -/
theorem encodePayload_table_of_tier_width {x : Nat} (h2 : 2 ≤ x) (h6 : x ≤ 6) :
    encodePayload x = if x = 2 then ⟨2, 1⟩ else if x = 3 then ⟨2, 2⟩ else if x = 4 then ⟨2, 3⟩
      else if x = 5 then ⟨3, 0⟩ else ⟨3, 1⟩ := by
  split_ifs <;> exact encodePayload_eq (by omega) (by omega) (by simp only [bucketStart]; omega)

/-! ## The fields of a code word as runs (43_tier_encode.md R160, 20_memory.md R53) -/

/-- The bits of a code word are those of its fields in stream order. -/
theorem flatMap_codeFields (v j t : Nat) : ((codeFields v j t).flatMap fun f => be f.1 f.2) = codeWord v j t := by
  simp [codeFields, codeWord, List.flatMap_map]

/-- Every field of a code word fits one `WRBITS`. -/
theorem codeFields_width_le {v j t : Nat} (hv : v < 2 ^ 64) (hj : j ≤ 64) {f : Nat × Nat}
    (hf : f ∈ codeFields v j t) : f.2 ≤ 64 := by
  simp only [codeFields, List.mem_append, List.mem_cons, List.mem_map, List.not_mem_nil, or_false] at hf
  rcases hf with (rfl | ⟨e, he, rfl⟩) | rfl
  · exact hj
  · exact (chainOf_width_le hv he).trans (by omega)
  · exact encodePayload_width_le_64 hv

/-- A `(value, width)` run on the ports `VAL` and `WID`, as `writeRun` puts it there. -/
def portRun (run : Nat × Nat) : Word × BitVec 7 := (BitVec.ofNat 64 run.1, BitVec.ofNat 7 run.2)

theorem writeRun_eq (run : Nat × Nat) : writeRun run = .wrbits (portRun run).1 (portRun run).2 := rfl

theorem portRun_width {run : Nat × Nat} (h : run.2 ≤ 64) : (portRun run).2.toNat = run.2 := by
  simp only [portRun, BitVec.toNat_ofNat]
  omega

/-- The port cuts off no bit of a run of at most 64 bits. -/
theorem be_portRun {run : Nat × Nat} (h : run.2 ≤ 64) :
    be (portRun run).1.toNat (portRun run).2.toNat = be run.1 run.2 := by
  rw [portRun_width h, portRun, BitVec.toNat_ofNat]
  exact be_congr fun i hi => by simp [Nat.testBit_mod_two_pow, show i < 64 by omega, -Nat.reducePow]

/-- `BWNEW`, one `WRBITS` for each run, `BWFIN`. -/
theorem execAll_writeRun {runs : List (Nat × Nat)} (hruns : ∀ r ∈ runs, r.2 ≤ 64) (s : State) :
    execAll (.bwnew :: runs.map writeRun ++ [.bwfin]) s =
      .next ((s.setWriter Writer.consumed).respond
        (.ok (Results.bytes (pack (runs.flatMap fun r => be r.1 r.2))))) := by
  have hports : runs.map writeRun = (runs.map portRun).map fun r => .wrbits r.1 r.2 := by
    simp [writeRun_eq]
  have hbits : ((runs.map portRun).flatMap fun r => be r.1.toNat r.2.toNat) = runs.flatMap fun r => be r.1 r.2 := by
    rw [List.flatMap_map]
    exact List.flatMap_congr fun r hr => be_portRun (hruns r hr)
  rw [hports, execAll_bwnew_wrbits_bwfin ?_, hbits]
  intro r hr
  obtain ⟨run, hrun, rfl⟩ := List.mem_map.mp hr
  rw [portRun_width (hruns run hrun)]
  exact hruns run hrun

/-! ## The outcomes of `ENCODE` (43_tier_encode.md R155, 60_exceptions.md R220) -/

theorem exec_encode_of_not_encodable {val : Word} {j : BitVec 4} {t : Nat}
    (h : encodable val.toNat j.toNat t = false) (s : State) :
    exec (.encode val j t) s =
      .next (s.respond (.fail (if validConfig j.toNat t = true then .valueTooLarge else .invalidEncoding))) := by
  simp only [exec, execEncode, valOperand, encodeSteps_error h, Except.map, conclude_error]

theorem exec_encode_invalid {j : BitVec 4} {t : Nat} (h : validConfig j.toNat t = false) (val : Word) (s : State) :
    exec (.encode val j t) s = .next (s.respond (.fail .invalidEncoding)) := by
  rw [exec_encode_of_not_encodable (by simp [encodable, h]), h]
  rfl

theorem exec_encode_too_wide {val : Word} {j : BitVec 4} {t : Nat} (hc : validConfig j.toNat t = true)
    (hw : wlim j.toNat t < (encodePayload val.toNat).width) (s : State) :
    exec (.encode val j t) s = .next (s.respond (.fail .valueTooLarge)) := by
  rw [exec_encode_of_not_encodable (by simp [encodable, hw]), if_pos hc]

/-- `ENCODE` succeeds exactly on the encodable values. -/
theorem exec_encode_ok_iff (s : State) (val : Word) (j : BitVec 4) (t : Nat) :
    (∃ s' out, exec (.encode val j t) s = .next s' ∧ s'.response = some (.ok ⟨none, none, none, some out⟩)) ↔
      encodable val.toNat j.toNat t = true := by
  constructor
  · rintro ⟨s', out, he, hresp⟩
    by_contra h
    cases (exec_encode_of_not_encodable (Bool.eq_false_iff.mpr h) s).symm.trans he
    cases hresp
  · exact fun h => ⟨_, _, exec_encode_of_encodable h s, rfl⟩

/-- A code word that begins another one is parsed to both their values (43_tier_encode.md R162). -/
theorem codeWord_prefix_eq {v v' j t : Nat} (hv : v < 2 ^ 64) (hv' : v' < 2 ^ 64) (h : encodable v j t = true)
    (h' : encodable v' j t = true) (hp : codeWord v j t <+: codeWord v' j t) : v = v' := by
  obtain ⟨rest, hrest⟩ := hp
  have hparse := parseCodeWord_codeWord hv h rest
  have hparse' := parseCodeWord_codeWord hv' h' []
  rw [List.append_nil, ← hrest, hparse] at hparse'
  injection hparse' with heq
  exact (Prod.mk.inj heq).1

/-! ## The failure kinds of the pure commands (60_exceptions.md R212 to R218) -/

/-- A register-free command fails with the kind of its failing step (60_exceptions.md R225). -/
theorem conclude_map_fail {α : Type} {e : Except Failure α} {f : α → Results} {s s' : State} {k : Failure}
    (he : conclude s (e.map f) = .next s') (hk : s'.response = some (.fail k)) : e = .error k := by
  cases e with
  | ok a => cases he; cases hk
  | error k' => cases he; cases hk; rfl

theorem encodeSteps_error_kind {v j t : Nat} {k : Failure} (hv : v < 2 ^ 64) (h : encodeSteps v j t = .error k) :
    k = .invalidEncoding ∨ k = .valueTooLarge := by
  cases he : encodable v j t with
  | true => cases (encodeSteps_ok hv he).symm.trans h
  | false =>
    cases (encodeSteps_error he).symm.trans h
    split <;> simp

theorem decodeValue_error_kind {p w : Nat} {k : Failure} (h : decodeValue p w = .error k) :
    k = .invalidEncoding ∨ k = .valueTooLarge :=
  (decodeValue_error h).imp And.left And.left

theorem parseTiers_error_kind {lim n width : Nat} {s : List Bool} {k : Failure}
    (h : parseTiers lim n width s = .error k) :
    k = .invalidEncoding ∨ k = .valueTooLarge ∨ k = .unexpectedEof := by
  induction n generalizing width s with
  | zero => cases h
  | succ n ih =>
    rw [parseTiers] at h
    split at h
    · cases h; simp
    · split at h
      · rename_i hd
        cases h
        exact .inl (decodeNumber_error hd).1
      · split_ifs at h
        · cases h; simp
        · cases h; simp
        · exact ih h

theorem parseCodeWord_error_kind {s : List Bool} {j t : Nat} {k : Failure} (h : parseCodeWord s j t = .error k) :
    k = .invalidEncoding ∨ k = .valueTooLarge ∨ k = .unexpectedEof := by
  unfold parseCodeWord at h
  split at h
  · cases h; simp
  · split_ifs at h
    · cases h; simp
    · split at h
      · cases h; exact parseTiers_error_kind ‹_›
      · split at h
        · cases h; simp
        · split at h
          · cases h
            exact (decodeValue_error_kind ‹_›).imp_right .inl
          · cases h

theorem decodeSteps_error_kind {bytes : List Byte} {j t : Nat} {k : Failure} (h : decodeSteps bytes j t = .error k) :
    k = .invalidEncoding ∨ k = .valueTooLarge ∨ k = .unexpectedEof := by
  cases hc : validConfig j t with
  | true => exact parseCodeWord_error_kind ((decodeSteps_parse bytes j t hc).symm.trans h)
  | false =>
    rw [decodeSteps, if_pos hc] at h
    cases h
    exact .inl rfl

/-- The round trip that `BITLEN` makes never fails (46_bit_length.md R205, R206). -/
theorem bitLengthSteps_ok {v j t : Nat} (hv : v < 2 ^ 64) (h : encodable v j t = true) :
    bitLengthSteps v j t = .ok (codeWord v j t).length := by
  obtain ⟨hc, -⟩ := encodable_iff.mp h
  simp only [bitLengthSteps, encodeSteps_ok hv h, decodeSteps_parse _ j t hc, unpack_pack,
    parseCodeWord_codeWord hv h]

theorem bitLengthSteps_error_kind {v j t : Nat} {k : Failure} (hv : v < 2 ^ 64)
    (h : bitLengthSteps v j t = .error k) : k = .invalidEncoding ∨ k = .valueTooLarge := by
  cases he : encodable v j t with
  | true => cases (bitLengthSteps_ok hv he).symm.trans h
  | false =>
    refine encodeSteps_error_kind (v := v) (j := j) (t := t) hv ?_
    rw [bitLengthSteps, encodeSteps_error he] at h
    rw [encodeSteps_error he]
    cases h
    rfl

/-- A pure command answers only the failure kinds its row of the table of 60_exceptions.md R218 gives it. -/
theorem exec_pure_canFail {i : Instr} {s s' : State} {k : Failure} (hp : i.isPure = true)
    (he : exec i s = .next s') (hk : s'.response = some (.fail k)) : i.canFail k = true := by
  cases i <;> simp only [Instr.isPure, Bool.false_eq_true] at hp <;> simp only [exec] at he
  case encpay => cases he; cases hk
  case decpay payload wid =>
    unfold execDecpay at he
    split at he
    · cases he; cases hk; rfl
    · rcases decodeValue_error_kind (conclude_map_fail he hk) with rfl | rfl <;> rfl
  case cfgchk => unfold execCfgchk at he; split at he <;> cases he <;> cases hk; rfl
  case maxw => unfold execMaxw at he; split at he <;> cases he <;> cases hk; rfl
  case encode val j t =>
    rcases encodeSteps_error_kind val.isLt (conclude_map_fail he hk) with rfl | rfl <;> rfl
  case decode =>
    rcases decodeSteps_error_kind (conclude_map_fail he hk) with rfl | rfl | rfl <;> rfl
  case bitlen val j t =>
    rcases bitLengthSteps_error_kind val.isLt (conclude_map_fail he hk) with rfl | rfl <;> rfl

theorem exec_brpos_fail {s s' : State} {k : Failure} (he : exec .brpos s = .next s')
    (hk : s'.response = some (.fail k)) : k = .cmdRefused := by
  cases hlive : s.br.live with
  | false =>
    cases (exec_brpos_refused hlive).symm.trans he
    cases hk
    rfl
  | true =>
    cases (exec_brpos_live hlive).symm.trans he
    cases hk

/-- All that a failure can be: a kind of a pure command's row of the table, a refusal, or a read past the end of the
input. -/
theorem exec_fail_cases {i : Instr} {s s' : State} {k : Failure} (he : exec i s = .next s')
    (hk : s'.response = some (.fail k)) :
    (i.isPure = true ∧ i.canFail k = true) ∨ k = .cmdRefused ∨ (∃ wid, i = .rdbits wid) ∧ k = .unexpectedEof := by
  rcases exec_cases he with ⟨-, rfl⟩ | ⟨r, rfl, hp | rfl | rfl⟩ | ⟨_, _, -, -, -, rfl⟩ | ⟨-, -, rfl⟩ | ⟨_, -, rfl⟩ |
    ⟨wid, hi, -, -, ⟨_, _, -, rfl⟩ | ⟨_, -, rfl⟩⟩
  · cases hk
  · exact .inl ⟨hp, exec_pure_canFail hp he hk⟩
  · exact .inr (.inl (exec_brpos_fail he hk))
  · cases hk
    exact .inr (.inl rfl)
  iterate 4 cases hk
  · cases hk
    exact .inr (.inr ⟨⟨wid, hi⟩, rfl⟩)

theorem canFail_jumpstarterOverflow (i : Instr) : i.canFail .jumpstarterOverflow = false := by
  cases i <;> rfl

end Sys2Proof.Machine

/-! PROOFS. The statements of 43_tier_encode.md: the outcomes of `ENCODE`, the jumpstarter check, the tier chain, the
encodable values, the distinct code words, the composition of the writer's commands. -/

namespace Sys2Proof.Machine

/-- Settles O33. -/
theorem encodeAnswersCodeWord : Obligations.EncodeAnswersCodeWord :=
  ⟨fun p hp => decodeRequest_of_carriedBy hp (by simp [Instr.carriedBy]),
    fun s val _ _ hbad => exec_encode_invalid (Bool.eq_false_iff.mpr (mt validConfig_iff.mp hbad)) val s,
    fun s _ _ _ h1 h8 ht hwide => exec_encode_too_wide (validConfig_iff.mpr ⟨h1, h8, ht⟩) hwide s,
    fun s _ _ _ h1 h8 ht hfits =>
      exec_encode_of_encodable (encodable_iff.mpr ⟨validConfig_iff.mpr ⟨h1, h8, ht⟩, hfits⟩) s⟩

/-- Settles O34: neither the pure commands nor the primitives have `JumpstarterOverflow` among the kinds they answer. -/
theorem jumpstarterOverflowNeverAnswered : Obligations.JumpstarterOverflowNeverAnswered := by
  refine ⟨fun val j t h => topmostWidth_fits val.isLt h, fun i s s' he hk => ?_⟩
  rcases exec_fail_cases he hk with ⟨-, hcan⟩ | hrefused | ⟨-, heof⟩
  · rw [canFail_jumpstarterOverflow] at hcan
    cases hcan
  · cases hrefused
  · cases heof

/-- Settles O35: `CH[k + 1]` encodes the width that `k` tiers lead to, and the table is `encode_payload` on the widths
that occur. -/
theorem tierChainIsTabulated : Obligations.TierChainIsTabulated := by
  intro val t ht pw ch
  have hch (k : Nat) (hk : k < t) : ch (k + 1) = some (encodePayload (topmostWidth val.toNat k)) := chainOf_getElem? hk
  obtain ⟨hlo, hhi, htwo, hthree⟩ := topmostWidth_bounds val.isLt ht
  refine ⟨chainOf_length _ _, ?_, fun k e hk hkt he => ?_, fun k hk hkt => ?_, ?_, ⟨hlo, hhi⟩, htwo, hthree⟩
  · rw [hch 0 ht, topmostWidth_zero]
    exact congrArg some (encodePayload_table (encodePayload_spec _).1 (encodePayload_width_le_64 val.isLt))
  · obtain ⟨k, rfl⟩ := Nat.exists_eq_add_of_le' hk
    have hwidth : topmostWidth val.toNat (k + 1) = e.width := by
      rw [topmostWidth_succ, Option.some.inj ((hch k (by omega)).symm.trans he)]
    obtain ⟨h2, h6, -⟩ := topmostWidth_bounds val.isLt hk
    rw [hwidth] at h2 h6
    exact ⟨h2, h6, by rw [hch _ hkt, hwidth, encodePayload_table_of_tier_width h2 h6]⟩
  · obtain ⟨k, rfl⟩ := Nat.exists_eq_add_of_le' (show 1 ≤ k by omega)
    obtain ⟨-, -, -, h2⟩ := topmostWidth_bounds (t := k) val.isLt (by omega)
    rw [hch k (by omega), h2 (by omega), encodePayload_table_of_tier_width (le_refl 2) (by omega), if_pos rfl]
  · obtain ⟨t, rfl⟩ := Nat.exists_eq_add_of_le' ht
    exact ⟨_, hch t (by omega), topmostWidth_succ _ _⟩

/-- Settles O36: the encodable values are those up to the end of the bucket of the bound, and the bound is tabulated. -/
theorem encodableValuesAreTabulated : Obligations.EncodableValuesAreTabulated := by
  refine ⟨fun s val j t => ?_, fun val j t h1 h8 ht => ?_⟩
  · rw [exec_encode_ok_iff, encodable_iff_le, validConfig_iff]
    simp only [and_assoc]
  · rw [wlim_eq_table (validConfig_iff.mpr ⟨h1, h8, ht⟩)]
    have hval := val.isLt
    split_ifs <;> simp only [bucketEnd] <;> omega

/-- Settles O38: the response of a pure command is one for all states, and a code word decodes to its own value
whatever follows it. -/
theorem codeWordsArePrefixFree : Obligations.CodeWordsArePrefixFree :=
  ⟨fun s s' _ _ _ _ _ hu hu' => pureCommandsDependOnOperandsOnly.2 _ s s' _ _ rfl hu hu',
    fun val val' _ _ h h' hp => BitVec.eq_of_toNat_eq (codeWord_prefix_eq val.isLt val'.isLt h h' hp)⟩

/-- Settles O39: the runs of the fields concatenate to the code word. -/
theorem encodeIsCompositionOfWrites : Obligations.EncodeIsCompositionOfWrites := by
  intro s val j t h
  refine ⟨_, exec_encode_of_encodable h s, ?_⟩
  rw [execAll_writeRun fun _ => codeFields_width_le val.isLt (by omega), flatMap_codeFields]
  rfl

end Sys2Proof.Machine

/-! PROOFS. Layer on the decoder: what the parse answers for each defect of a jumpstarter field, which inputs `decode`
accepts, and what `exec` answers for `DECODE`, in the order of TierDecode.lean (44_tier_decode.md R170 to R185). -/

namespace Sys2Proof.Machine

/-! ## The defects of a jumpstarter field (44_tier_decode.md R172, R177, R185) -/

theorem takeField_of_le {n : Nat} {s : List Bool} (h : n ≤ s.length) :
    takeField n s = some (bitsVal (s.take n), s.drop n) := if_pos h

theorem takeField_of_lt {n : Nat} {s : List Bool} (h : s.length < n) : takeField n s = none := if_neg (by omega)

/-- A tier field of width 1 names no width: its 0 is no number, and its 1 decodes to the width 0. -/
theorem parseTiers_width_one (lim k : Nat) (s : List Bool) :
    parseTiers lim (k + 1) 1 s = .error (if s = [] then .unexpectedEof else .invalidEncoding) := by
  cases s with
  | nil => rfl
  | cons b rest => cases b <;> rfl

theorem parseCodeWord_short {s : List Bool} {j : Nat} (h : s.length < j) (t : Nat) :
    parseCodeWord s j t = .error .unexpectedEof := by
  simp only [parseCodeWord, takeField_of_lt h]

/-- The bound check comes before the first tier field is read. -/
theorem parseCodeWord_too_wide {s : List Bool} {j t : Nat} (hj : j ≤ s.length)
    (hw : wlim j t < bitsVal (s.take j) + 1) : parseCodeWord s j t = .error .valueTooLarge := by
  simp only [parseCodeWord, takeField_of_le hj, gt_iff_lt, if_pos hw]

theorem parseCodeWord_jumpstarter_zero {s : List Bool} {j t : Nat} (hc : validConfig j t = true) (hj : j ≤ s.length)
    (h0 : bitsVal (s.take j) = 0) :
    parseCodeWord s j t = .error (if s.length = j then .unexpectedEof else .invalidEncoding) := by
  obtain ⟨-, -, ht⟩ := validConfig_iff.mp hc
  obtain ⟨k, rfl⟩ := Nat.exists_eq_add_of_le' ht
  have hlim := four_le_wlim j (k + 1) hc
  have hrest : s.drop j = [] ↔ s.length = j := by rw [List.drop_eq_nil_iff]; omega
  simp only [parseCodeWord, takeField_of_le hj, h0, Nat.zero_add, parseTiers_width_one, hrest]
  rw [if_neg (by omega)]

/-! ## The inputs that `decode` accepts (44_tier_decode.md R180, R182, R184) -/

/-- `decode` accepts exactly the inputs that begin with the code word of a value, and answers that value and the length
of the code word; whatever follows is not looked at. -/
theorem decodeSteps_ok_iff {bytes : List Byte} {j t v n : Nat} :
    decodeSteps bytes j t = .ok (v, n) ↔
      v < 2 ^ 64 ∧ encodable v j t = true ∧ n = (codeWord v j t).length ∧ codeWord v j t <+: unpack bytes := by
  constructor
  · intro h
    cases hc : validConfig j t with
    | false =>
      rw [decodeSteps, if_pos hc] at h
      cases h
    | true =>
      rw [decodeSteps_parse bytes j t hc] at h
      obtain ⟨hv, he, hn, rest, hrest⟩ := parseCodeWord_ok hc h
      exact ⟨hv, he, hn, rest, hrest.symm⟩
  · rintro ⟨hv, he, rfl, rest, hrest⟩
    obtain ⟨hc, -⟩ := encodable_iff.mp he
    rw [decodeSteps_parse bytes j t hc, ← hrest, parseCodeWord_codeWord hv he rest]

/-! ## The outcomes of `DECODE` (44_tier_decode.md R170, R178) -/

theorem results_valueBits_toNat (v : Word) (n : Nat) : Results.valueBits v.toNat n = ⟨some v, none, some n, none⟩ := by
  simp [Results.valueBits, Results.value, Results.none]

/-- Under a valid configuration `DECODE` answers what the parse of the unpacked input answers (20_memory.md R55). -/
theorem exec_decode_parse {j : BitVec 4} {t : Nat} (hc : validConfig j.toNat t = true) (bytes : List Byte)
    (s : State) : exec (.decode bytes j t) s =
      conclude s ((parseCodeWord (unpack bytes) j.toNat t).map fun vn => Results.valueBits vn.1 vn.2) := by
  simp only [exec, execDecode, decodeSteps_parse bytes j.toNat t hc]

theorem exec_decode_parse_error {bytes : List Byte} {j : BitVec 4} {t : Nat} {k : Failure}
    (hc : validConfig j.toNat t = true) (h : parseCodeWord (unpack bytes) j.toNat t = .error k) (s : State) :
    exec (.decode bytes j t) s = .next (s.respond (.fail k)) := by
  rw [exec_decode_parse hc, h]
  rfl

/-- A register-free command succeeds with the results of its steps. -/
theorem conclude_eq_ok_iff {s : State} {e : Except Failure Results} {r : Results} :
    conclude s e = .next (s.respond (.ok r)) ↔ e = .ok r := by
  cases e <;> simp [State.respond]

/-- The response of a successful `DECODE` names its steps' value in full: `RVAL` cuts nothing off a decoded value. -/
theorem exec_decode_ok_iff_steps {s : State} {bytes : List Byte} {j : BitVec 4} {t : Nat} {val : Word} {n : Nat} :
    exec (.decode bytes j t) s = .next (s.respond (.ok ⟨some val, none, some n, none⟩)) ↔
      decodeSteps bytes j.toNat t = .ok (val.toNat, n) := by
  rw [exec, execDecode, conclude_eq_ok_iff]
  constructor
  · intro h
    cases hd : decodeSteps bytes j.toNat t with
    | error k =>
      rw [hd] at h
      cases h
    | ok vn =>
      obtain ⟨v, m⟩ := vn
      obtain ⟨hv, -⟩ := decodeSteps_ok_iff.mp hd
      rw [hd] at h
      cases h
      rw [BitVec.toNat_ofNat, Nat.mod_eq_of_lt hv]
  · intro h
    rw [h, ← results_valueBits_toNat]
    rfl

/-- `DECODE` succeeds exactly on the inputs that begin with the code word of an encodable value. -/
theorem exec_decode_ok_iff {s : State} {bytes : List Byte} {j : BitVec 4} {t : Nat} {val : Word} {n : Nat} :
    exec (.decode bytes j t) s = .next (s.respond (.ok ⟨some val, none, some n, none⟩)) ↔
      encodable val.toNat j.toNat t = true ∧ n = (codeWord val.toNat j.toNat t).length ∧
        codeWord val.toNat j.toNat t <+: unpack bytes := by
  rw [exec_decode_ok_iff_steps, decodeSteps_ok_iff, and_iff_right val.isLt]

end Sys2Proof.Machine

/-! PROOFS. The statements of 44_tier_decode.md: the round trip, canonical input, the parse of the bit string, the bits
after the code word, the defects of a jumpstarter field. -/

namespace Sys2Proof.Machine

/-- Settles O41: the packed code word unpacks to the code word and its pad bits. -/
theorem decodeInvertsEncode : Obligations.DecodeInvertsEncode := by
  intro s val j t h
  obtain ⟨hmin, -⟩ := codeWord_length_bounds val.isLt h
  have hunpack : codeWord val.toNat j.toNat t <+: unpack (pack (codeWord val.toNat j.toNat t)) :=
    ⟨_, (unpack_pack _).symm⟩
  refine ⟨_, _, exec_encode_of_encodable h s, exec_decode_ok_iff.mpr ⟨h, rfl, hunpack⟩, rfl, hmin, ?_, pack_length _⟩
  simpa using hunpack.length_le

/-- Settles O42. -/
theorem acceptedInputIsCanonical : Obligations.AcceptedInputIsCanonical := by
  intro s bytes j t val n h
  obtain ⟨he, rfl, hp⟩ := exec_decode_ok_iff.mp h
  have hword := List.prefix_iff_eq_take.mp hp
  rw [← hword]
  exact ⟨exec_encode_of_encodable he s, rfl, rfl⟩

/-- Settles O40. -/
theorem decodeParsesBitStream : Obligations.DecodeParsesBitStream := by
  refine ⟨fun p hp => decodeRequest_of_carriedBy hp (by simp [Instr.carriedBy]),
    fun s bytes j t hbad => exec_decode_invalid (Bool.eq_false_iff.mpr (mt validConfig_iff.mp hbad)) bytes s,
    fun s bytes j t h1 h8 ht => ?_⟩
  rw [exec_decode_parse (validConfig_iff.mpr ⟨h1, h8, ht⟩)]
  cases parseCodeWord (unpack bytes) j.toNat t <;> rfl

/-- Settles O43: the bits consumed are the code word, which both inputs begin with. -/
theorem bitsAfterCodeWordAreIgnored : Obligations.BitsAfterCodeWordAreIgnored := by
  refine ⟨fun s bytes bytes' j t val n h hagree => ?_, fun s bytes extra j t val n h => ?_⟩
  · obtain ⟨he, rfl, hp⟩ := exec_decode_ok_iff.mp h
    rw [← List.prefix_iff_eq_take.mp hp] at hagree
    exact exec_decode_ok_iff.mpr ⟨he, rfl, List.prefix_iff_eq_take.mpr hagree.symm⟩
  · obtain ⟨he, hn, hp⟩ := exec_decode_ok_iff.mp h
    refine exec_decode_ok_iff.mpr ⟨he, hn, ?_⟩
    rw [unpack_append]
    exact hp.trans (List.prefix_append _ _)

/-- Settles O44. -/
theorem jumpstarterDefectsAreReported : Obligations.JumpstarterDefectsAreReported := by
  intro s bytes j t h1 h8 ht
  have hc := validConfig_iff.mpr ⟨h1, h8, ht⟩
  rw [← unpack_length]
  refine ⟨fun hshort => ?_, fun hj hwide => ?_, fun hj h0 => ?_, fun hj h0 => ?_⟩
  · exact exec_decode_parse_error hc (parseCodeWord_short hshort t) s
  · exact exec_decode_parse_error hc (parseCodeWord_too_wide hj hwide) s
  · have hparse := parseCodeWord_jumpstarter_zero hc hj.le h0
    rw [if_neg hj.ne'] at hparse
    exact exec_decode_parse_error hc hparse s
  · have hparse := parseCodeWord_jumpstarter_zero hc hj.le h0
    rw [if_pos hj.symm] at hparse
    exact exec_decode_parse_error hc hparse s

end Sys2Proof.Machine

/-! PROOFS. Layer on the configuration checks: the bound register and the source's saturating bound as the exact bound
cut off at their maximum, and what `exec` answers for `CFGCHK` and `MAXW`, in the order of ConfigBound.lean
(45_config_bound.md R190, R193 to R196). -/

namespace Sys2Proof.Machine

/-! ## The bounds that saturate (45_config_bound.md R193, R195) -/

/-- One tier above a bound cut off at `sent` reaches `sent` again, so the cut is made once, at the end. -/
theorem min_tier_min {sent : Nat} (h : 2 ≤ sent) (b : Nat) :
    min sent (2 ^ (min sent b + 1) - 4) = min sent (2 ^ (b + 1) - 4) := by
  rcases Nat.le_total b sent with hb | hb
  · rw [Nat.min_eq_right hb]
  · have hsent : sent < 2 ^ sent := Nat.lt_two_pow_self
    have hmono : 2 ^ (sent + 1) ≤ 2 ^ (b + 1) := Nat.pow_le_pow_right (by omega) (by omega)
    rw [Nat.min_eq_left hb]
    rw [Nat.pow_succ] at hmono ⊢
    omega

/-- The source's bound saturates to the sentinel exactly where the exact bound exceeds it. -/
theorem maxWidthSaturating_eq_min {sent : Nat} (h : 2 ≤ sent) (j t : Nat) :
    maxWidthSaturating sent j t = min sent (maxWidthForConfig j t) := by
  induction t with
  | zero => rfl
  | succ t ih => rw [maxWidthSaturating, ih, maxWidthForConfig, min_tier_min h]

/-- The test of the tier loop is the clamp at 64: a bound of 6 is the least whose next tier passes 64. -/
theorem clamp_tier_eq_min (b : Nat) :
    (if b ≥ 6 then Config.widthMax else 2 ^ (b + 1) - 4) = min 64 (2 ^ (b + 1) - 4) := by
  split
  next hb =>
    have : 2 ^ 7 ≤ 2 ^ (b + 1) := Nat.pow_le_pow_right (by omega) (by omega)
    rw [Config.widthMax]
    omega
  next hb =>
    have : 2 ^ (b + 1) ≤ 2 ^ 6 := Nat.pow_le_pow_right (by omega) (by omega)
    omega

/-- The loop takes its tiers from the front; the recurrence of R193 adds one at the end. -/
theorem wlimLoop_succ (t b : Nat) : wlimLoop (t + 1) b = min 64 (2 ^ (wlimLoop t b + 1) - 4) := by
  induction t generalizing b with
  | zero => exact clamp_tier_eq_min b
  | succ t ih => rw [wlimLoop, ih, wlimLoop]

theorem wlim_succ (j t : Nat) : wlim j (t + 1) = min 64 (2 ^ (wlim j t + 1) - 4) := wlimLoop_succ t _

/-- The bound register holds the exact bound clamped at 64, for every number of tiers (45_config_bound.md R195). -/
theorem wlim_eq_min (j t : Nat) : wlim j t = min 64 (maxWidthForConfig j t) := by
  induction t with
  | zero => rfl
  | succ t ih => rw [wlim_succ, ih, maxWidthForConfig, min_tier_min (by omega)]

/-! ## The commands, outcome by outcome (45_config_bound.md R190, R196) -/

theorem exec_cfgchk_valid {j : BitVec 4} {t : Nat} (h : validConfig j.toNat t = true) (s : State) :
    exec (.cfgchk j t) s = .next (s.respond (.ok Results.none)) := by
  simp only [exec, execCfgchk, h, if_true, answer_eq]

theorem exec_cfgchk_invalid {j : BitVec 4} {t : Nat} (h : validConfig j.toNat t = false) (s : State) :
    exec (.cfgchk j t) s = .next (s.respond (.fail .invalidEncoding)) := by
  simp only [exec, execCfgchk, h, Bool.false_eq_true, if_false, raise_eq]

theorem exec_maxw_valid {j : BitVec 4} {t : Nat} (h : validConfig j.toNat t = true) (s : State) :
    exec (.maxw j t) s = .next (s.respond (.ok (Results.width (wlim j.toNat t)))) := by
  simp only [exec, execMaxw, h, if_true, answer_eq]

theorem exec_maxw_invalid {j : BitVec 4} {t : Nat} (h : validConfig j.toNat t = false) (s : State) :
    exec (.maxw j t) s = .next (s.respond (.fail .invalidEncoding)) := by
  simp only [exec, execMaxw, h, Bool.false_eq_true, if_false, raise_eq]

end Sys2Proof.Machine

/-! PROOFS. The statements of 45_config_bound.md: the configuration check, the reported bound, the comparisons with the
clamped bound. -/

namespace Sys2Proof.Machine

/-- Settles O31: the bound register holds the clamped exact bound, and takes the values of the table. -/
theorem maxwReportsClampedBound : Obligations.MaxwReportsClampedBound := by
  refine ⟨fun p hp => decodeRequest_of_carriedBy hp (by simp [Instr.carriedBy]),
    fun s j t hbad => exec_maxw_invalid (Bool.eq_false_iff.mpr (mt validConfig_iff.mp hbad)) s,
    fun s j t h1 h8 ht => ?_⟩
  have hc := validConfig_iff.mpr ⟨h1, h8, ht⟩
  exact ⟨wlim j.toNat t, exec_maxw_valid hc s, rfl, wlim_eq_min _ _, wlim_eq_table hc⟩

/-- Settles O32: both bounds are the exact one cut off at 64 or later, which a quantity of at most 64 cannot tell. -/
theorem clampedBoundComparesAlike : Obligations.ClampedBoundComparesAlike := by
  intro j t x sent _ _ _ hx hsent
  rw [wlim_eq_min, maxWidthSaturating_eq_min (by omega)]
  constructor <;> omega

/-- Settles O30. -/
theorem cfgchkAcceptsExactlyValid : Obligations.CfgchkAcceptsExactlyValid :=
  ⟨fun p hp => decodeRequest_of_carriedBy hp (by simp [Instr.carriedBy]),
    fun s _ _ h1 h8 ht => exec_cfgchk_valid (validConfig_iff.mpr ⟨h1, h8, ht⟩) s,
    fun s _ _ hbad => exec_cfgchk_invalid (Bool.eq_false_iff.mpr (mt validConfig_iff.mp hbad)) s⟩

end Sys2Proof.Machine

/-! PROOFS. Layer on the length query: what `exec` answers for `BITLEN` where the value is encodable and where it is
not (46_bit_length.md R205 to R207). -/

namespace Sys2Proof.Machine

/-- The length query fails in its `encode` step, with the kind of that step. -/
theorem bitLengthSteps_error {v j t : Nat} {k : Failure} (h : encodeSteps v j t = .error k) :
    bitLengthSteps v j t = .error k := by
  rw [bitLengthSteps, h]

theorem exec_bitlen_of_encodable {val : Word} {j : BitVec 4} {t : Nat}
    (h : encodable val.toNat j.toNat t = true) (s : State) :
    exec (.bitlen val j t) s = .next (s.respond (.ok (Results.bits (codeWord val.toNat j.toNat t).length))) := by
  simp only [exec, execBitlen, valOperand, bitLengthSteps_ok val.isLt h, Except.map, conclude_ok]

/-- Where there is no code word, the two commands cannot be told apart. -/
theorem exec_bitlen_eq_exec_encode {val : Word} {j : BitVec 4} {t : Nat}
    (h : encodable val.toNat j.toNat t = false) (s : State) :
    exec (.bitlen val j t) s = exec (.encode val j t) s := by
  have hsteps := encodeSteps_error h
  simp only [exec, execBitlen, execEncode, valOperand, hsteps, bitLengthSteps_error hsteps, Except.map]

theorem exec_bitlen_fail_iff (s : State) (val : Word) (j : BitVec 4) (t : Nat) (k : Failure) :
    exec (.bitlen val j t) s = .next (s.respond (.fail k)) ↔
      exec (.encode val j t) s = .next (s.respond (.fail k)) := by
  cases h : encodable val.toNat j.toNat t with
  | true => simp [exec_bitlen_of_encodable h, exec_encode_of_encodable h, State.respond]
  | false => rw [exec_bitlen_eq_exec_encode h]

end Sys2Proof.Machine

/-! PROOFS. The statements of 46_bit_length.md: the reported length, and the failures shared with `ENCODE`. -/

namespace Sys2Proof.Machine

/-- Settles O45: the round trip that `BITLEN` makes reports the length of the code word, which is the sum of the
widths. -/
theorem bitlenReportsCodeWordLength : Obligations.BitlenReportsCodeWordLength := by
  refine ⟨fun p hp => decodeRequest_of_carriedBy hp (by simp [Instr.carriedBy]), fun s val j t h => ?_⟩
  rw [exec_bitlen_of_encodable h, codeWord_length]
  rfl

/-- Settles O46: every failure of `BITLEN` is the one of `ENCODE`, whose kinds do not include `UnexpectedEof`. -/
theorem bitlenFailsAsEncode : Obligations.BitlenFailsAsEncode := by
  refine ⟨exec_bitlen_fail_iff, fun s val j t hbad => ?_, fun s val j t h1 h8 ht hwide => ?_,
    fun s s' val j t he heof => ?_⟩
  · have hc := Bool.eq_false_iff.mpr (mt validConfig_iff.mp hbad)
    exact (exec_bitlen_fail_iff ..).mpr (exec_encode_invalid hc val s)
  · exact (exec_bitlen_fail_iff ..).mpr (exec_encode_too_wide (validConfig_iff.mpr ⟨h1, h8, ht⟩) hwide s)
  · cases exec_pure_canFail rfl he heof

end Sys2Proof.Machine

/-! PROOFS. Layer on the failures: the refused commands and their answer, and the state that a failure leaves
(60_exceptions.md R215, R218, R223). -/

namespace Sys2Proof.Machine

/-! ## The refused commands (60_exceptions.md R215) -/

@[simp] theorem refusedIn_wrbits {s : State} {val : Word} {wid : BitVec 7} :
    (Instr.wrbits val wid).refusedIn s = true ↔ s.bw.live = false ∨ 64 < wid.toNat := by
  simp [Instr.refusedIn]

@[simp] theorem refusedIn_bwfin {s : State} : Instr.bwfin.refusedIn s = true ↔ s.bw.live = false := by
  simp [Instr.refusedIn]

@[simp] theorem refusedIn_rdbits {s : State} {wid : BitVec 7} :
    (Instr.rdbits wid).refusedIn s = true ↔ s.br.live = false ∨ 64 < wid.toNat := by
  simp [Instr.refusedIn]

@[simp] theorem refusedIn_brpos {s : State} : Instr.brpos.refusedIn s = true ↔ s.br.live = false := by
  simp [Instr.refusedIn]

@[simp] theorem refusedIn_decpay {s : State} {payload : Word} {wid : BitVec 7} :
    (Instr.decpay payload wid).refusedIn s = true ↔ wid.toNat = 0 ∨ 64 < wid.toNat := by
  simp [Instr.refusedIn]

theorem exec_refused {i : Instr} {s : State} (h : i.refusedIn s = true) :
    exec i s = .next (s.respond (.fail .cmdRefused)) := by
  cases i
  case wrbits val wid => exact exec_wrbits_refused (refusedIn_wrbits.mp h) val
  case bwfin => exact exec_bwfin_refused (refusedIn_bwfin.mp h)
  case rdbits wid => exact exec_rdbits_refused (refusedIn_rdbits.mp h)
  case brpos => exact exec_brpos_refused (refusedIn_brpos.mp h)
  case decpay payload wid => exact exec_decpay_refused (refusedIn_decpay.mp h) payload s
  all_goals cases h

/-- No command that is accepted answers `CmdRefused`: a primitive has its answer from the rule of its accepted case, a
pure command other than `DECPAY` has no such kind in its row of the table of 60_exceptions.md R218. -/
theorem refusedIn_of_exec {i : Instr} {s s' : State} (he : exec i s = .next s')
    (hk : s'.response = some (.fail .cmdRefused)) : i.refusedIn s = true := by
  by_contra hok
  cases i
  case bwnew | brnew => cases he; cases hk
  case wrbits val wid =>
    obtain ⟨hlive, hwid⟩ : s.bw.live = true ∧ wid.toNat ≤ 64 := by simpa using hok
    cases (exec_wrbits_live hlive hwid val).symm.trans he
    cases hk
  case bwfin =>
    cases (exec_bwfin_live (by simpa using hok)).symm.trans he
    cases hk
  case rdbits wid =>
    obtain ⟨hlive, hwid⟩ : s.br.live = true ∧ wid.toNat ≤ 64 := by simpa using hok
    rcases hr : s.br.readBits wid.toNat with ⟨r, _ | v⟩
    · cases (exec_rdbits_none hlive hwid hr).symm.trans he
      cases hk
    · cases (exec_rdbits_some hlive hwid hr).symm.trans he
      cases hk
  case brpos =>
    cases (exec_brpos_live (by simpa using hok)).symm.trans he
    cases hk
  case decpay payload wid =>
    obtain ⟨h0, h64⟩ : wid.toNat ≠ 0 ∧ wid.toNat ≤ 64 := by simpa using hok
    rw [exec_decpay_conclude (by omega) h64] at he
    rcases decodeValue_error_kind (conclude_map_fail he hk) with h | h <;> cases h
  all_goals cases exec_pure_canFail rfl he hk

/-- The column `CmdRefused` of the table of 60_exceptions.md R218. -/
theorem canFail_cmdRefused {i : Instr} {s : State} (h : i.refusedIn s = true) : i.canFail .cmdRefused = true := by
  cases i
  case wrbits | bwfin | rdbits | brpos | decpay => rfl
  all_goals cases h

/-! ## The state that a failure leaves (60_exceptions.md R223) -/

/-- A failure leaves the kind on the response ports and nothing else, except for the reader that an `RDBITS` past the
end of the input leaves. -/
theorem exec_fail_state {i : Instr} {s s' : State} {k : Failure} (he : exec i s = .next s')
    (hk : s'.response = some (.fail k)) :
    s' = s.respond (.fail k) ∨
      ((∃ wid, i = .rdbits wid) ∧ k = .unexpectedEof) ∧ ∃ r, s' = (s.setReader r).respond (.fail k) := by
  rcases exec_cases he with ⟨-, rfl⟩ | ⟨r, rfl, -⟩ | ⟨_, _, -, -, -, rfl⟩ | ⟨-, -, rfl⟩ | ⟨_, -, rfl⟩ |
    ⟨wid, hi, -, -, ⟨_, _, -, rfl⟩ | ⟨r, -, rfl⟩⟩
  · cases hk
  · cases hk
    exact .inl rfl
  iterate 4 cases hk
  · cases hk
    exact .inr ⟨⟨⟨wid, hi⟩, rfl⟩, r, rfl⟩

end Sys2Proof.Machine

/-! PROOFS. The statements of 60_exceptions.md: the refusals, the table of failure kinds, what a failure leaves, the
status codes. -/

namespace Sys2Proof.Machine

/-- Settles O24. -/
theorem refusalExactlyInListedCases : Obligations.RefusalExactlyInListedCases :=
  ⟨fun _ _ => ⟨fun ⟨_, he, hk⟩ => refusedIn_of_exec he hk, fun h => ⟨_, exec_refused h, rfl⟩⟩,
    fun _ _ => exec_refused, fun _ _ _ _ => step_reserved⟩

/-- Settles O48, by the three shapes of a failure: a pure command's kind, a refusal, a read past the end. -/
theorem failureKindsAsTabulated : Obligations.FailureKindsAsTabulated := by
  intro i s s' k he hk
  rcases exec_fail_cases he hk with ⟨-, hcan⟩ | rfl | ⟨⟨_, rfl⟩, rfl⟩
  · exact hcan
  · exact canFail_cmdRefused (refusedIn_of_exec he hk)
  · rfl

/-- Settles O49: the writer and the other failures by `exec_fail_state`, the reader after a failed read by O20. -/
theorem failureLeavesOnlyCursorMoved : Obligations.FailureLeavesOnlyCursorMoved := by
  intro i s s' k h he hk
  refine ⟨?_, exec_script he, ?_, fun hother => ?_⟩
  · rcases exec_fail_state he hk with rfl | ⟨-, _, rfl⟩ <;> rfl
  · rintro ⟨⟨wid, rfl⟩, rfl⟩
    obtain ⟨hlive, hwid, hfew⟩ := (exec_rdbits_eof_iff h wid).mp ⟨s', he, hk⟩
    obtain ⟨r, hex, hl, hs, hi, hc, -⟩ := rdbitsPastEndConsumesRest s wid h hlive hwid hfew
    cases hex.symm.trans he
    exact ⟨hl.trans hlive.symm, hs, hi, hc⟩
  · rcases exec_fail_state he hk with rfl | ⟨heof, -⟩
    · rfl
    · exact absurd heof hother

/-- Settles O47: every response is a success or one of the five failures of the table. -/
theorem statusCodesAsTabulated : Obligations.StatusCodesAsTabulated := by
  refine ⟨fun _ => rfl, rfl, rfl, rfl, rfl, rfl, fun r => ?_⟩
  cases r with
  | ok _ => simp [Response.status]
  | fail k => cases k <;> decide

end Sys2Proof.Machine

/-! PROOFS. Layer on `step`: the rule of each host event, and what a run shows the host of it
(70_reset_and_hazards.md R240, R241, R263). The rules of a presented command are `step_present` and `step_reserved`. -/

namespace Sys2Proof.Machine

/-! ## The step without a command (70_reset_and_hazards.md R240, R241) -/

theorem step_idle {s : State} (hs : s.script = []) : step s = .next s := by
  simp only [step, hs, idle]

theorem step_reset {s : State} {rest : List HostEvent} (hs : s.script = .reset :: rest) :
    step s = .next (State.reset.setScript rest) := by
  simp only [step, hs, resetEvent, setScript_script]

/-- The primitives need a live writer or reader, and the reset state has neither. -/
theorem refusedIn_reset {i : Instr} {val : Word} {wid : BitVec 7} (rest : List HostEvent)
    (hi : i ∈ [Instr.wrbits val wid, .bwfin, .rdbits wid, .brpos]) :
    i.refusedIn (State.reset.setScript rest) = true := by
  simp only [List.mem_cons, List.not_mem_nil, or_false] at hi
  obtain rfl | rfl | rfl | rfl := hi
  · exact refusedIn_wrbits.mpr (.inl rfl)
  · exact refusedIn_bwfin.mpr rfl
  · exact refusedIn_rdbits.mpr (.inl rfl)
  · exact refusedIn_brpos.mpr rfl

/-! ## A run, event by event (70_reset_and_hazards.md R263) -/

/-- A presented command is answered, by its meaning or as a reserved word, and only its event is taken. -/
theorem step_present_answers {s : State} {p : Request} {rest : List HostEvent} (hs : s.script = .present p :: rest) :
    ∃ s' r, step s = .next s' ∧ s'.response = some r ∧ s'.script = rest := by
  cases hd : decodeRequest p with
  | ok i =>
    rw [step_present hs hd]
    exact everyCommandAnswers i (s.setScript rest)
  | error e => exact ⟨_, _, step_reserved hs hd, rfl, rfl⟩

theorem runResponses_reset {s : State} {rest : List HostEvent} (hs : s.script = .reset :: rest) (n : Nat) :
    runResponses (n + 1) s = runResponses n (State.reset.setScript rest) := by
  simp only [runResponses, step_reset hs, hs]

theorem runResponses_present {s s' : State} {p : Request} {rest : List HostEvent} {r : Response}
    (hs : s.script = .present p :: rest) (hstep : step s = .next s') (hr : s'.response = some r) (n : Nat) :
    runResponses (n + 1) s = r :: runResponses n s' := by
  simp only [runResponses, hstep, hs, hr, Option.toList_some, List.singleton_append]

/-- A run as long as the host's events answers each presented command once. The induction is on the events, over all
states that hold them, for a step leaves the events after its own and any registers. -/
theorem runResponses_length {s : State} {events : List HostEvent} (hs : s.script = events) :
    (runResponses events.length s).length = (presented events).length := by
  induction events generalizing s with
  | nil => rfl
  | cons event rest ih =>
    cases event with
    | reset => rw [List.length_cons, runResponses_reset hs, ih rfl, presented]
    | present p =>
      obtain ⟨s', r, hstep, hr, hrest⟩ := step_present_answers hs
      rw [List.length_cons, runResponses_present hs hstep hr, List.length_cons, ih hrest, presented, List.length_cons]

end Sys2Proof.Machine

/-! PROOFS. The statements of 70_reset_and_hazards.md: the reset event, the wait for a command, one response for each
command. -/

namespace Sys2Proof.Machine

/-- Settles O11, by `runResponses_length` on the events that the state holds. -/
theorem runGivesOneResponsePerCommand : Obligations.RunGivesOneResponsePerCommand :=
  fun _ => runResponses_length rfl

/-- Settles O4: the state of the statement is `State.reset` with the events left, which refuses the primitives. -/
theorem resetEventRestoresReset : Obligations.ResetEventRestoresReset :=
  ⟨fun _ _ hs => step_reset hs, fun rest _ _ _ hi => exec_refused (refusedIn_reset rest hi)⟩

/-- Settles O5. -/
theorem blockWaitsWithoutCommand : Obligations.BlockWaitsWithoutCommand := fun _ hs => step_idle hs

end Sys2Proof.Machine
